-- ==== Sys2Proof/Word.lean ====
section
/-! DEFINITION. The plainest values of HUFF: the command word, a Symbol, a digit (00_scope.md R12, 30_encoding.md R80). -/

namespace Sys2Proof

/-- The 8-bit command word of format CMD8 (30_encoding.md R80). -/
abbrev Byte := BitVec 8

/-- A Symbol, "an opaque unit of input": only equality of Symbols is ever used (10_state.md R30, 92 D2).
A Symbol of `SYM_W` bits is a number below `2^SYM_W`; in the unbounded reading it is any number
(00_scope.md R9). Log 2. -/
abbrev Symbol := Nat

/-- A digit, a value of {0, 1} (00_scope.md R12): `false` is 0, `true` is 1. -/
abbrev Digit := Bool

end Sys2Proof
end

