-- ==== Sys2Proof/Config.lean ====
section
/-! DEFINITION. What hardware this is (00_scope.md R1), and the open implementation parameters of 00_scope.md
R9, which the model takes as arguments. -/

namespace Sys2Proof

/-- How a model identifies its hardware. -/
structure Identity where
  name : String
  version : String
  deriving DecidableEq, Repr

/-- "A model names the hardware `HUFF` and records \"no version in source\"" (00_scope.md R1): a Huffman
codec block of five units, the Frequency Counter, Tree Builder, Code Table Generator, Encoder and Decoder. -/
def identity : Identity := { name := "HUFF", version := "no version in source" }

/-- The parameters of 00_scope.md R9. `none` is the column "unbounded reading" of its table.
They are fixed for the life of an instance and are no architectural state (10_state.md R22,
70_reset_and_hazards.md R222). Log 1, log 14. -/
structure Params where
  /-- `SYM_W`, the width of a Symbol. -/
  symW : Option Nat
  /-- `FREQ_W`, the width of a count or frequency field. -/
  freqW : Option Nat
  /-- `N_MAX`, the capacity of SYM. -/
  nMax : Option Nat
  /-- `K_MAX`, the capacity of FT and CT. -/
  kMax : Option Nat
  /-- `M_MAX`, the capacity of BITS. -/
  mMax : Option Nat
  /-- `O_MAX`, the capacity of OUT. -/
  oMax : Option Nat
  /-- `IDX_W`, the width of a node index. -/
  idxW : Option Nat
  /-- `LEN_W`, the width of a length register. -/
  lenW : Option Nat
  deriving DecidableEq, Repr

/-- The reference reading: "the value under which HUFF behaves exactly as the source's mathematical
description" (00_scope.md R9). -/
def Params.unbounded : Params := ⟨none, none, none, none, none, none, none, none⟩

/-- `NODE_MAX`, "fixed at `2*K_MAX - 1`" (00_scope.md R9). -/
def Params.nodeMax (p : Params) : Option Nat := p.kMax.map fun k => 2 * k - 1

/-- `CODE_MAX`, "fixed at `K_MAX - 1`" (00_scope.md R9, 41_tree_builder.md R124). -/
def Params.codeMax (p : Params) : Option Nat := p.kMax.map fun k => k - 1

/-- `n` does not exceed the bound, `none` being no bound. -/
def fits : Option Nat → Nat → Bool
  | none, _ => true
  | some m, n => decide (n ≤ m)

/-- The bound `a` does not exceed the bound `b`, `none` being no bound. -/
def boundLe : Option Nat → Option Nat → Bool
  | _, none => true
  | none, some _ => false
  | some a, some b => decide (a ≤ b)

end Sys2Proof
end

