-- ==== Sys2Proof/Syntax.lean ====
section
/-! DEFINITION. The commands (rows of spec/opcode_table.json), the records and buffers they work on, and the
host's transactions. -/

namespace Sys2Proof

/-- HUFF's instructions are its six commands (00_scope.md R2, 30_encoding.md R81). No command has an
operand field or an immediate (30_encoding.md R82): the operands are fixed buffers. -/
inductive Instr where
  /-- CLEAR, 45_system.md R165. -/
  | clear
  /-- COUNT, 40_frequency_counter.md R100. -/
  | count
  /-- BUILD, 41_tree_builder.md R115. -/
  | build
  /-- TABLE, 42_code_table_generator.md R131. -/
  | table
  /-- ENCODE, 43_encoder.md R140. -/
  | encode
  /-- DECODE, 44_decoder.md R150. -/
  | decode
  deriving DecidableEq, Repr

/-- The six buffers (10_state.md R20, R30 to R35). -/
inductive Buffer where
  | sym | ft | node | ct | bits | out
  deriving DecidableEq, Repr

/-- The eight registers the host can read, registers 1 to 8 of the map of 10_state.md R23.
Register 0, CMD, is write-only and holds no value (10_state.md R24). -/
inductive Reg where
  | status | symLen | ftLen | nodeCnt | root | ctLen | bitsLen | outLen
  deriving DecidableEq, Repr

/-- An entry of the Frequency Table (10_state.md R31). -/
structure FtEntry where
  sym : Symbol
  count : Nat
  deriving DecidableEq, Repr

/-- A node record, the source's tagged union (00_scope.md R16, 10_state.md R32). `left` and `right` are
indices into NODE. -/
inductive NodeRec where
  | leaf (sym : Symbol) (freq : Nat)
  | internal (freq : Nat) (left right : Nat)
  deriving DecidableEq, Repr

/-- An entry of the Code Table (10_state.md R33). Its `len` field is the length of `code`. Log 3. -/
structure CtEntry where
  sym : Symbol
  code : List Digit
  deriving DecidableEq, Repr

/-- A whole buffer's content, under its buffer's name: what HostGet returns and HostPut brings
(45_system.md R167, R168). -/
inductive Contents where
  | sym (L : List Symbol)
  | ft (L : List FtEntry)
  | node (L : List NodeRec)
  | ct (L : List CtEntry)
  | bits (L : List Digit)
  | out (L : List Symbol)
  deriving DecidableEq, Repr

/-- What the host does at one step (45_system.md R170). The first four are the transactions of R166 to
R168; the last two are what 93_implementation_defined.md U15 lists as no transaction, kept so that the
model can say that they have no step (log 7). -/
inductive Transaction where
  /-- HostCmd(w), the write of `w` to CMD (45_system.md R166). -/
  | cmd (w : Byte)
  /-- HostPut(B, L), `c` naming both (45_system.md R167). -/
  | put (c : Contents)
  /-- HostGet(B) (45_system.md R168). -/
  | get (b : Buffer)
  /-- HostReadReg(r) (45_system.md R168). -/
  | readReg (r : Reg)
  /-- A read of CMD: "does not exist as a transaction" (10_state.md R24). -/
  | readCmd
  /-- A write of a register other than CMD (45_system.md R167, 93_implementation_defined.md U15). -/
  | writeReg (r : Reg) (v : Nat)
  deriving DecidableEq, Repr

end Sys2Proof
end

