-- ==== Sys2Proof/WellFormed.lean ====
section
/-! DEFINITION. Which commands, command words and parameter sets are well formed. -/

namespace Sys2Proof

/-- Every command is well formed: none has an operand or an immediate that could be out of range
(30_encoding.md R82). -/
def Instr.wellFormed : Instr → Bool
  | .clear => true
  | .count => true
  | .build => true
  | .table => true
  | .encode => true
  | .decode => true

/-- The reserved field `rsv` of a command word is 0 (10_state.md R24, 30_encoding.md R80). -/
def rsvZero (w : Byte) : Bool := w.extractLsb' 3 5 == 0#5

/-- The `op` field of a command word is one of `000` to `101` (30_encoding.md R81). -/
def opAssigned (w : Byte) : Bool := decide ((w.extractLsb' 0 3).toNat ≤ 5)

/-- A command word is well formed when its reserved field is 0 and its opcode is assigned. -/
def wordWellFormed (w : Byte) : Bool := rsvZero w && opAssigned w

/-- `SYM_W >= 1` (00_scope.md R9). -/
def Params.symWPositive (p : Params) : Bool := boundLe (some 1) p.symW

/-- `FREQ_W >= 1` (00_scope.md R9). -/
def Params.freqWPositive (p : Params) : Bool := boundLe (some 1) p.freqW

/-- `1 <= K_MAX` (00_scope.md R9). -/
def Params.kMaxPositive (p : Params) : Bool := boundLe (some 1) p.kMax

/-- `K_MAX <= 2^SYM_W` (00_scope.md R9). -/
def Params.kMaxFitsSymW (p : Params) : Bool := boundLe p.kMax (p.symW.map (2 ^ ·))

/-- `2^IDX_W >= NODE_MAX` (00_scope.md R9). -/
def Params.idxWLargeEnough (p : Params) : Bool := boundLe p.nodeMax (p.idxW.map (2 ^ ·))

/-- A length register can hold the capacity `c`. -/
def Params.lenWHolds (p : Params) (c : Option Nat) : Bool :=
  boundLe c (p.lenW.map fun w => 2 ^ w - 1)

/-- `LEN_W` is "large enough for the largest of the capacities" (00_scope.md R9). -/
def Params.lenWLargeEnough (p : Params) : Bool :=
  p.lenWHolds p.nMax && p.lenWHolds p.kMax && p.lenWHolds p.nodeMax && p.lenWHolds p.mMax &&
    p.lenWHolds p.oMax

/-- The constraints of the table of 00_scope.md R9. Log 14. -/
def Params.wf (p : Params) : Bool :=
  p.symWPositive && p.freqWPositive && p.kMaxPositive && p.kMaxFitsSymW && p.idxWLargeEnough &&
    p.lenWLargeEnough

end Sys2Proof
end

