-- ==== Sys2Proof/Decode.lean ====
section
/-! DEFINITION. From command words to commands and back (30_encoding.md section 1). -/

namespace Sys2Proof

/-- Why a word decodes to no command (30_encoding.md R83). Which of the two it was is not recorded by
the hardware. -/
inductive DecodeReject where
  /-- `rsv != 00000`. -/
  | reservedBits
  /-- `rsv = 00000` and `op` is `110` or `111`. -/
  | unassignedOpcode
  deriving DecidableEq, Repr

/-- Field `rsv`, bits [7:3] of the command word (30_encoding.md R80). -/
def rsvField (w : Byte) : BitVec 5 := w.extractLsb' 3 5

/-- Field `op`, bits [2:0] of the command word (30_encoding.md R80). -/
def opField (w : Byte) : BitVec 3 := w.extractLsb' 0 3

/-- The opcode map of 30_encoding.md R81. -/
def decodeOp (op : BitVec 3) : Except DecodeReject Instr :=
  if op = 0b000#3 then .ok .clear
  else if op = 0b001#3 then .ok .count
  else if op = 0b010#3 then .ok .build
  else if op = 0b011#3 then .ok .table
  else if op = 0b100#3 then .ok .encode
  else if op = 0b101#3 then .ok .decode
  else .error .unassignedOpcode

/-- The decoder, "total on all 256 words" (30_encoding.md R81, R83). There is one length and one format
(R84): one word is one command. -/
def decode (w : Byte) : Except DecodeReject Instr :=
  if rsvField w = 0#5 then decodeOp (opField w) else .error .reservedBits

/-- The opcode of each command (30_encoding.md R81). -/
def opcode : Instr → BitVec 3
  | .clear => 0b000#3
  | .count => 0b001#3
  | .build => 0b010#3
  | .table => 0b011#3
  | .encode => 0b100#3
  | .decode => 0b101#3

/-- The encoder: `rsv = 00000` above the opcode (30_encoding.md R80). -/
def encode (i : Instr) : Byte := 0#5 ++ opcode i

/-- What the decoder reads from a row's word: the word is the one command byte (30_encoding.md R84). -/
def decodeTableWord (nbits w : Nat) : Option Instr :=
  let v := w % 2 ^ nbits
  if v < 256 then (decode (BitVec.ofNat 8 v)).toOption else none

end Sys2Proof
end

