-- ==== Sys2Proof/Machine/State.lean ====
section
/-! DEFINITION. The state of HUFF as plain data, its reset, and the reasons a step can stop. -/

namespace Sys2Proof.Machine

/-- The six values of STATUS (10_state.md R25, 60_exceptions.md R200). Codes 6 and 7 "are never
written"; "a model's STATUS type has six values" (93_implementation_defined.md U13). -/
inductive Status where
  | ok | invalidInput | lookupError | malformedStream | illegalCommand | capacity
  deriving DecidableEq, Repr

/-- The ROOT register (10_state.md R27). -/
structure Root where
  valid : Bool
  idx : Nat
  deriving DecidableEq, Repr

/-- The null root, `valid = 0`; "then `idx` reads as 0" (10_state.md R27). -/
def Root.null : Root := ⟨false, 0⟩

/-- The six buffers (10_state.md R30 to R35). A buffer's content is exactly its elements below its length
register (R26), so a list holds both: equal contents are equal lists. Log 3. -/
structure Memory where
  sym : List Symbol
  ft : List FtEntry
  node : List NodeRec
  ct : List CtEntry
  bits : List Digit
  out : List Symbol
  deriving DecidableEq, Repr

/-- All six buffers empty (10_state.md R40). -/
def Memory.empty : Memory := ⟨[], [], [], [], [], []⟩

/-- What HostReadReg returns (45_system.md R168). -/
inductive RegVal where
  /-- STATUS, its 3-bit code (10_state.md R25). -/
  | status (code : BitVec 3)
  /-- One of the six length registers (10_state.md R26). -/
  | len (n : Nat)
  /-- ROOT, by its fields (10_state.md R27). -/
  | root (valid : Bool) (idx : Nat)
  deriving DecidableEq, Repr

/-- What a transaction returns to the host (45_system.md R168). -/
inductive Reply where
  | contents (c : Contents)
  | reg (v : RegVal)
  deriving DecidableEq, Repr

/-- The state. `status`, `root` and `mem` are the architectural state of 10_state.md R20 (the length
registers are the lengths of the buffers, CMD holds nothing). `params`, `script` and `replies` are the
model's own: the parameters of the instance (log 1), the host's coming transactions, oldest first
(log 5), and what the host was given back, oldest first (log 6). -/
structure State where
  params : Params
  status : Status
  root : Root
  mem : Memory
  script : List Transaction
  replies : List Reply
  deriving DecidableEq, Repr

/-- The machine right after reset (10_state.md R40, 70_reset_and_hazards.md R220) for an instance with
parameters `p`, with no transaction pending. -/
def State.resetWith (p : Params) : State :=
  { params := p, status := .ok, root := .null, mem := .empty, script := [], replies := [] }

/-- The machine right after reset, in the unbounded reading of 00_scope.md R9. Log 1. -/
def State.reset : State := State.resetWith .unbounded

/-- The reasons the machine stops. -/
inductive Fault where
  /-- Raised by TABLE and DECODE when NODE and ROOT are not a tree of 10_state.md R38: an index names no
  node, or the walk meets a cycle. No reachable state has such a tree, and the spec gives these commands
  no effect on one. Safe: the model stops where the spec says nothing. Log 8. -/
  | corruptTree
  deriving DecidableEq, Repr

/-- The reasons a step has no meaning. The transactions refused here are those of which the spec says
"the model gives it no step" (45_system.md R167) or "does not exist as a transaction" (10_state.md R24).
Log 7. -/
inductive Refusal where
  /-- Raised by no meaning: the mark of a command whose meaning is not written. Safe. -/
  | notModelled (mnemonic : String)
  /-- Raised by HostPut to NODE, CT or OUT, which are read-only to the host (45_system.md R167). Safe. -/
  | putReadOnly (b : Buffer)
  /-- Raised by HostPut of a sequence longer than the buffer's capacity (45_system.md R167). Safe. -/
  | putOverCapacity (b : Buffer)
  /-- Raised by HostPut of a sequence with an element not of the buffer's type: a Symbol that is no
  `SYM_W`-bit value or a count above `2^FREQ_W - 1` (45_system.md R167). Safe. -/
  | putElementTooWide (b : Buffer)
  /-- Raised by a host read of CMD (10_state.md R24, 45_system.md R168). Safe. -/
  | readOfCmd
  /-- Raised by a host write of a register other than CMD (45_system.md R167). Safe. -/
  | writeOfReadOnlyRegister (r : Reg)
  deriving DecidableEq, Repr

end Sys2Proof.Machine
end

