-- ==== Sys2Proof/Machine/Ops.lean ====
section
/-! DEFINITION. The named operations over buffers and registers: element access, whole-buffer writes, how a
command fails and how it ends, and how a transaction reaches the machine. -/

namespace Sys2Proof.Machine

/-! ## Capacities and field widths (00_scope.md R9) -/

/-- `CAP(B)` (00_scope.md R9). -/
def bufferCap (p : Params) : Buffer → Option Nat
  | .sym => p.nMax
  | .ft => p.kMax
  | .node => p.nodeMax
  | .ct => p.kMax
  | .bits => p.mMax
  | .out => p.oMax

/-- The largest value of a width-`w` unsigned field, `2^w - 1`. -/
def widthMax (w : Option Nat) : Option Nat := w.map fun w => 2 ^ w - 1

/-- `s` is a Symbol of `SYM_W` bits. -/
def symFits (p : Params) (s : Symbol) : Bool := fits (widthMax p.symW) s

/-- `n` is at most `2^FREQ_W - 1`. -/
def freqFits (p : Params) (n : Nat) : Bool := fits (widthMax p.freqW) n

/-- `n` is a node index of `IDX_W` bits. -/
def idxFits (p : Params) (n : Nat) : Bool := fits (widthMax p.idxW) n

/-! ## Nodes (00_scope.md R16) -/

/-- `isLeaf(n)`. -/
def isLeaf : NodeRec → Bool
  | .leaf _ _ => true
  | .internal _ _ _ => false

/-- `freq(n)`, "the `freq` field of either form". -/
def nodeFreq : NodeRec → Nat
  | .leaf _ f => f
  | .internal f _ _ => f

/-! ## Memory primitives (20_memory.md R62) -/

/-- `MemRead(B:i, n)`, from the content `L` of the buffer: defined only when `i + n <= B_LEN`. -/
def memRead {α : Type} (L : List α) (i n : Nat) : Option (List α) :=
  if i + n ≤ L.length then some ((L.drop i).take n) else none

/-- A buffer as MemWrite sees it: its cells from index 0, `none` being a cell that holds no value, and its
length register. MemWrite may write above the length (20_memory.md R62), where the content that State holds
has no element (10_state.md R26, log 3). -/
structure Storage (α : Type) where
  cells : List (Option α)
  len : Nat
  deriving DecidableEq, Repr

/-- The value of cell `j`. -/
def Storage.cell {α : Type} (b : Storage α) (j : Nat) : Option α := b.cells.getD j none

/-- The storage whose content is `L`, with no value above it. -/
def Storage.ofContent {α : Type} (L : List α) : Storage α := ⟨L.map some, L.length⟩

/-- `MemWrite(B:i, n, v)` with `n = len(v)`: defined exactly when `i + n <= CAP(B)`; "it replaces those
elements and nothing else", so not the length register, which only `B <- L` writes (10_state.md R26). -/
def memWrite {α : Type} (cap : Option Nat) (b : Storage α) (i : Nat) (v : List α) : Option (Storage α) :=
  if fits cap (i + v.length) then
    some { b with
      cells := (List.range (max b.cells.length (i + v.length))).map fun j =>
        if i ≤ j ∧ j < i + v.length then v[j - i]? else b.cell j }
  else none

/-- `B <- L`: "write the sequence `L` from index 0 and set the length register of `B` to `len(L)`"
(00_scope.md R13). -/
def writeWhole {α : Type} (cap : Option Nat) (b : Storage α) (L : List α) : Option (Storage α) :=
  (memWrite cap b 0 L).map fun b => { b with len := L.length }

/-- The content of a buffer, `B` alone (00_scope.md R13). -/
def Memory.contents (m : Memory) : Buffer → Contents
  | .sym => .sym m.sym
  | .ft => .ft m.ft
  | .node => .node m.node
  | .ct => .ct m.ct
  | .bits => .bits m.bits
  | .out => .out m.out

/-- `B <- L` (00_scope.md R13) on contents: the content becomes exactly `L`, and with it the length register,
whatever the storage held (`writeWhole`, 20_memory.md R62). -/
def Memory.store (m : Memory) : Contents → Memory
  | .sym L => { m with sym := L }
  | .ft L => { m with ft := L }
  | .node L => { m with node := L }
  | .ct L => { m with ct := L }
  | .bits L => { m with bits := L }
  | .out L => { m with out := L }

/-- The empty content of a buffer. -/
def emptyContents : Buffer → Contents
  | .sym => .sym []
  | .ft => .ft []
  | .node => .node []
  | .ct => .ct []
  | .bits => .bits []
  | .out => .out []

/-- `B <- L` on the state. -/
def State.store (s : State) (c : Contents) : State := { s with mem := s.mem.store c }

/-- `NODE <- N; ROOT <- r` (41_tree_builder.md R115). -/
def State.storeTree (s : State) (N : List NodeRec) (r : Root) : State :=
  { s with mem := { s.mem with node := N }, root := r }

/-- `STATUS <- st`. -/
def State.setStatus (s : State) (st : Status) : State := { s with status := st }

/-- A destination is emptied: its length becomes 0, and for NODE the ROOT register becomes null
(60_exceptions.md R206). -/
def State.emptyDestination (s : State) (d : Buffer) : State :=
  match d with
  | .node => s.storeTree [] .null
  | .sym => s.store (emptyContents .sym)
  | .ft => s.store (emptyContents .ft)
  | .ct => s.store (emptyContents .ct)
  | .bits => s.store (emptyContents .bits)
  | .out => s.store (emptyContents .out)

/-! ## How a command ends -/

/-- `raise E()`, the nearest thing HUFF has to taking an exception (00_scope.md R14, 60_exceptions.md
R206): STATUS gets the code, the command's destination is emptied, no other register or buffer changes.
Nothing is saved and there is no return instruction (R209): the next command runs normally from here. -/
def raise (e : Status) (d : Buffer) (s : State) : State := (s.emptyDestination d).setStatus e

/-- A command that reaches the end of its pseudocode writes its destination and ends with `STATUS <- OK`;
one whose outcome `st` is an error ends with `raise` (00_scope.md R14). -/
def complete (st : Status) (d : Buffer) (write : State → State) (s : State) : State :=
  if st = .ok then (write s).setStatus .ok else raise st d s

/-- The illegal-command step (45_system.md R169): no destination to empty. -/
def illegalCommand (s : State) : State := s.setStatus .illegalCommand

/-! ## How a transaction reaches the machine -/

/-- The host's next transaction and the state with it taken out of the script (log 5). -/
def fetch (s : State) : Option (Transaction × State) :=
  match s.script with
  | [] => none
  | t :: rest => some (t, { s with script := rest })

/-- A value is returned to the host (45_system.md R168, log 6). -/
def State.reply (s : State) (r : Reply) : State := { s with replies := s.replies ++ [r] }

/-- The host will next do `ts`, then what it was going to do. -/
def State.load (s : State) (ts : List Transaction) : State := { s with script := ts ++ s.script }

end Sys2Proof.Machine
end

