-- ==== Sys2Proof/Machine/Flags.lean ====
section
/-! DEFINITION. STATUS, HUFF's only flag-like state: its codes, and which one a command ends with
(60_exceptions.md R200, R207, R208). -/

namespace Sys2Proof.Machine

/-- The 3-bit code of each status (60_exceptions.md R200). -/
def statusCode : Status → BitVec 3
  | .ok => 0#3
  | .invalidInput => 1#3
  | .lookupError => 2#3
  | .malformedStream => 3#3
  | .illegalCommand => 4#3
  | .capacity => 5#3

/-- The status of a command whose source-defined outcome is `st` and whose result fits or not: "the
source's error wins" (60_exceptions.md R207). -/
def withCapacity (st : Status) (resultFits : Bool) : Status :=
  if st = .ok then (if resultFits then .ok else .capacity) else st

/-- The table COUNT made fits FT (40_frequency_counter.md R100, R102). -/
def tableFits (p : Params) (T : List FtEntry) : Bool :=
  fits p.kMax T.length && T.all fun e => freqFits p e.count

/-- COUNT's status (40_frequency_counter.md R100, R102). -/
def countStatus (p : Params) (T : List FtEntry) : Status := withCapacity .ok (tableFits p T)

/-- BUILD's input check, case (b): some count is 0 (41_tree_builder.md R111). -/
def hasZeroCount (F : List FtEntry) : Bool := F.any fun e => e.count == 0

/-- BUILD's input check, case (c): two entries have the same symbol (41_tree_builder.md R111). -/
def hasRepeatedSymbol : List FtEntry → Bool
  | [] => false
  | e :: F => (F.any fun f => f.sym == e.sym) || hasRepeatedSymbol F

/-- The sum of all counts (41_tree_builder.md R118). -/
def sumCounts (F : List FtEntry) : Nat := (F.map FtEntry.count).sum

/-- BUILD's status: InvalidInput in the three cases of R111, else Capacity when the sum of all counts does
not fit FREQ_W (41_tree_builder.md R111, R115, R118). -/
def buildStatus (p : Params) (F : List FtEntry) : Status :=
  if F.isEmpty || hasZeroCount F || hasRepeatedSymbol F then .invalidInput
  else withCapacity .ok (freqFits p (sumCounts F))

/-- ENCODE's status, `E` being the digits or `none` when a symbol is missing (43_encoder.md R140, R141,
R145). -/
def encodeStatus (p : Params) : Option (List Digit) → Status
  | none => .lookupError
  | some E => withCapacity .ok (fits p.mMax E.length)

/-- DECODE's status, `D` being the symbols or `none` for a malformed stream (44_decoder.md R150, R154,
R157). -/
def decodeStatus (p : Params) : Option (List Symbol) → Status
  | none => .malformedStream
  | some D => withCapacity .ok (fits p.oMax D.length)

end Sys2Proof.Machine
end

