-- ==== Sys2Proof/Machine/Operands.lean ====
section
/-! DEFINITION. Operands: the fixed buffers each command reads and writes, the registers and buffers as the
host sees them (20_memory.md R61, 30_encoding.md R82, 10_state.md R23). -/

namespace Sys2Proof.Machine

/-- One thing a command or the host can reach: a buffer, or the ROOT register. STATUS is written by every
command and read by none (10_state.md R25). -/
inductive Operand where
  | buffer (b : Buffer)
  | root
  deriving DecidableEq, Repr

/-- What a command reads (20_memory.md R61). -/
def sources : Instr → List Operand
  | .clear => []
  | .count => [.buffer .sym]
  | .build => [.buffer .ft]
  | .table => [.root, .buffer .node]
  | .encode => [.buffer .sym, .buffer .ct]
  | .decode => [.buffer .bits, .root, .buffer .node]

/-- What a command writes beside STATUS (20_memory.md R61). -/
def destinations : Instr → List Operand
  | .clear =>
    [.buffer .sym, .buffer .ft, .buffer .node, .root, .buffer .ct, .buffer .bits, .buffer .out]
  | .count => [.buffer .ft]
  | .build => [.buffer .node, .root]
  | .table => [.buffer .ct]
  | .encode => [.buffer .bits]
  | .decode => [.buffer .out]

/-- The value of an operand. -/
inductive OperandVal where
  | contents (c : Contents)
  | root (r : Root)
  deriving DecidableEq, Repr

/-- An operand's value in a state. -/
def State.operand (s : State) : Operand → OperandVal
  | .buffer b => .contents (s.mem.contents b)
  | .root => .root s.root

/-- One element of a buffer, of whichever type its buffer holds. -/
inductive Elem where
  | sym (x : Symbol)
  | ft (e : FtEntry)
  | node (n : NodeRec)
  | ct (e : CtEntry)
  | digit (d : Digit)
  deriving DecidableEq, Repr

/-- `B[i]`, that is `MemRead(B:i, 1)` (00_scope.md R13): no value at or above the length (10_state.md
R26). -/
def State.elem (s : State) (b : Buffer) (i : Nat) : Option Elem :=
  match b with
  | .sym => (memRead s.mem.sym i 1).bind fun L => L.head?.map .sym
  | .ft => (memRead s.mem.ft i 1).bind fun L => L.head?.map .ft
  | .node => (memRead s.mem.node i 1).bind fun L => L.head?.map .node
  | .ct => (memRead s.mem.ct i 1).bind fun L => L.head?.map .ct
  | .bits => (memRead s.mem.bits i 1).bind fun L => L.head?.map .digit
  | .out => (memRead s.mem.out i 1).bind fun L => L.head?.map .sym

/-- The length register of a buffer (10_state.md R26). -/
def State.len (s : State) : Buffer → Nat
  | .sym => s.mem.sym.length
  | .ft => s.mem.ft.length
  | .node => s.mem.node.length
  | .ct => s.mem.ct.length
  | .bits => s.mem.bits.length
  | .out => s.mem.out.length

/-- A register's number (10_state.md R23). -/
def regNumber : Reg → Nat
  | .status => 1
  | .symLen => 2
  | .ftLen => 3
  | .nodeCnt => 4
  | .root => 5
  | .ctLen => 6
  | .bitsLen => 7
  | .outLen => 8

/-- A register's value as HostReadReg returns it (45_system.md R168). -/
def State.regVal (s : State) : Reg → RegVal
  | .status => .status (statusCode s.status)
  | .symLen => .len (s.len .sym)
  | .ftLen => .len (s.len .ft)
  | .nodeCnt => .len (s.len .node)
  | .root => .root s.root.valid s.root.idx
  | .ctLen => .len (s.len .ct)
  | .bitsLen => .len (s.len .bits)
  | .outLen => .len (s.len .out)

/-! ## What HostPut brings (45_system.md R167) -/

/-- The buffer a content belongs to. -/
def contentsBuffer : Contents → Buffer
  | .sym _ => .sym
  | .ft _ => .ft
  | .node _ => .node
  | .ct _ => .ct
  | .bits _ => .bits
  | .out _ => .out

/-- The length of a content. -/
def contentsLength : Contents → Nat
  | .sym L => L.length
  | .ft L => L.length
  | .node L => L.length
  | .ct L => L.length
  | .bits L => L.length
  | .out L => L.length

/-- "for `B` one of SYM, FT, BITS only" (45_system.md R167). -/
def hostWritable : Buffer → Bool
  | .sym => true
  | .ft => true
  | .node => false
  | .ct => false
  | .bits => true
  | .out => false

/-- An FT entry of `SYM_W` and `FREQ_W` bits. -/
def ftEntryFits (p : Params) (e : FtEntry) : Bool := symFits p e.sym && freqFits p e.count

/-- A node record of the widths of 10_state.md R32. -/
def nodeFits (p : Params) : NodeRec → Bool
  | .leaf s f => symFits p s && freqFits p f
  | .internal f l r => freqFits p f && idxFits p l && idxFits p r

/-- A CT entry: `len` at most `CODE_MAX` (10_state.md R33). -/
def ctEntryFits (p : Params) (e : CtEntry) : Bool := symFits p e.sym && fits p.codeMax e.code.length

/-- Every element is of the buffer's element type (10_state.md R30 to R35). -/
def elementsFit (p : Params) : Contents → Bool
  | .sym L => L.all (symFits p)
  | .ft L => L.all (ftEntryFits p)
  | .node L => L.all (nodeFits p)
  | .ct L => L.all (ctEntryFits p)
  | .bits _ => true
  | .out L => L.all (symFits p)

end Sys2Proof.Machine
end

