-- ==== Sys2Proof/Machine/CodeTable.lean ====
section
/-! DEFINITION. The Code Table Generator: TABLE (42_code_table_generator.md). -/

namespace Sys2Proof.Machine

/-- `walk(n, pre)` (42_code_table_generator.md R131): the entries of the leaves below node `n`, left
subtree first, `pre` being the digits from the root to `n`. `fuel` bounds the depth: on a tree of
10_state.md R38 the number of nodes is enough; the walk answers `none` when it is not, or when an index
names no node (log 8). -/
def walk : Nat → List NodeRec → Nat → List Digit → Option (List CtEntry)
  | 0, _, _, _ => none
  | fuel + 1, N, n, pre =>
    match N[n]? with
    | none => none
    | some (.leaf s _) => some [⟨s, pre⟩]
    | some (.internal _ l r) =>
      match walk fuel N l (pre ++ [false]) with
      | none => none
      | some L =>
        match walk fuel N r (pre ++ [true]) with
        | none => none
        | some R => some (L ++ R)

/-- The table of the tree in NODE and ROOT; empty for the null root (42_code_table_generator.md R131,
R133). -/
def codeTable (N : List NodeRec) (root : Root) : Option (List CtEntry) :=
  if root.valid then walk N.length N root.idx [] else some []

/-- TABLE (42_code_table_generator.md R130 to R137): CT <- the codes of the tree; "always OK" (R135). -/
def execTable (s : State) : Host.Outcome State Fault Refusal :=
  match codeTable s.mem.node s.root with
  | none => .fault .corruptTree
  | some T => .next (complete .ok .ct (fun s => s.store (.ct T)) s)

end Sys2Proof.Machine
end

