-- ==== Sys2Proof/Machine/Decoder.lean ====
section
/-! DEFINITION. The Decoder: DECODE (44_decoder.md). -/

namespace Sys2Proof.Machine

/-- The move one digit makes from an internal node: left on 0, right on 1 (44_decoder.md R153). `none`
where `pos` names no internal node, which R153 excludes (log 8). -/
def childOn (N : List NodeRec) (pos : Nat) (d : Digit) : Option Nat :=
  match N[pos]? with
  | some (.internal _ l r) => some (if d then r else l)
  | some (.leaf _ _) => none
  | none => none

/-- DECODE's loop from node `pos`, root internal (44_decoder.md R150, R153): the symbols emitted and the
position after the last digit. -/
def decodeFrom (N : List NodeRec) (root : Nat) : Nat → List Digit → Option (List Symbol × Nat)
  | pos, [] => some ([], pos)
  | pos, d :: ds =>
    match childOn N pos d with
    | none => none
    | some q =>
      match N[q]? with
      | none => none
      | some (.leaf s _) =>
        match decodeFrom N root root ds with
        | none => none
        | some (D, p) => some (s :: D, p)
      | some (.internal _ _ _) => decodeFrom N root q ds

/-- What DECODE makes of the digits (44_decoder.md R150): `none` on a tree 10_state.md R38 excludes
(log 8), `some none` for MalformedStream (R154), else the symbols. -/
def decodeStream (N : List NodeRec) (root : Root) (E : List Digit) : Option (Option (List Symbol)) :=
  if root.valid then
    match N[root.idx]? with
    | none => none
    | some (.leaf s f) => some (if E.isEmpty then some (List.replicate f s) else none)
    | some (.internal _ _ _) =>
      match decodeFrom N root.idx root.idx E with
      | none => none
      | some (D, p) => some (if p = root.idx then some D else none)
  else some (if E.isEmpty then some [] else none)

/-- DECODE (44_decoder.md R150 to R158): OUT <- the symbols, or MalformedStream, or Capacity. -/
def execDecode (s : State) : Host.Outcome State Fault Refusal :=
  match decodeStream s.mem.node s.root s.mem.bits with
  | none => .fault .corruptTree
  | some D => .next (complete (decodeStatus s.params D) .out (fun s => s.store (.out (D.getD []))) s)

end Sys2Proof.Machine
end

