-- ==== Sys2Proof/Machine/Encoder.lean ====
section
/-! DEFINITION. The Encoder: ENCODE (43_encoder.md). -/

namespace Sys2Proof.Machine

/-- The code of a symbol, "looked up by exact symbol match" (43_encoder.md R140, R143). Log 9. -/
def lookupCode : List CtEntry → Symbol → Option (List Digit)
  | [], _ => none
  | e :: T, s => if e.sym = s then some e.code else lookupCode T s

/-- ENCODE's loop: the concatenation of the codes in symbol order, `none` if some symbol has no entry
(43_encoder.md R140, R141). -/
def encodeSymbols (T : List CtEntry) : List Symbol → Option (List Digit)
  | [] => some []
  | s :: S =>
    match lookupCode T s with
    | none => none
    | some c =>
      match encodeSymbols T S with
      | none => none
      | some E => some (c ++ E)

/-- ENCODE (43_encoder.md R140 to R147): BITS <- the concatenation, or LookupError, or Capacity. -/
def execEncode (s : State) : Host.Outcome State Fault Refusal :=
  let E := encodeSymbols s.mem.ct s.mem.sym
  .next (complete (encodeStatus s.params E) .bits (fun s => s.store (.bits (E.getD []))) s)

end Sys2Proof.Machine
end

