-- ==== Sys2Proof/Machine/FrequencyCounter.lean ====
section
/-! DEFINITION. The Frequency Counter: COUNT (40_frequency_counter.md). -/

namespace Sys2Proof.Machine

/-- One pass of COUNT's loop: the entry of `s` is incremented, or a new one is appended
(40_frequency_counter.md R100). -/
def countSymbol (s : Symbol) : List FtEntry → List FtEntry
  | [] => [⟨s, 1⟩]
  | e :: T => if e.sym = s then ⟨e.sym, e.count + 1⟩ :: T else e :: countSymbol s T

/-- COUNT's loop over SYM in index order, from the table `T` (40_frequency_counter.md R100). -/
def countFrom : List Symbol → List FtEntry → List FtEntry
  | [], T => T
  | s :: S, T => countFrom S (countSymbol s T)

/-- COUNT (40_frequency_counter.md R100 to R103): FT <- the table of SYM, or Capacity. -/
def execCount (s : State) : Host.Outcome State Fault Refusal :=
  let T := countFrom s.mem.sym []
  .next (complete (countStatus s.params T) .ft (fun s => s.store (.ft T)) s)

end Sys2Proof.Machine
end

