-- ==== Sys2Proof/Machine/System.lean ====
section
/-! DEFINITION. The system command CLEAR and the host's data transactions (45_system.md). -/

namespace Sys2Proof.Machine

/-- CLEAR (45_system.md R165): every buffer emptied, ROOT null, STATUS OK. -/
def execClear (s : State) : Host.Outcome State Fault Refusal :=
  .next { s with mem := .empty, root := .null, status := .ok }

/-- Why HostPut of `c` is no transaction of this hardware, if it is not one (45_system.md R167). Log 7. -/
def putRefusal (p : Params) (c : Contents) : Option Refusal :=
  let b := contentsBuffer c
  if hostWritable b then
    if elementsFit p c then
      if fits (bufferCap p b) (contentsLength c) then none else some (.putOverCapacity b)
    else some (.putElementTooWide b)
  else some (.putReadOnly b)

/-- HostPut(B, L) (45_system.md R167): `B <- L`; "Nothing else changes; STATUS does not change." -/
def hostPut (c : Contents) (s : State) : Host.Outcome State Fault Refusal :=
  match putRefusal s.params c with
  | some r => .refused r
  | none => .next (s.store c)

/-- HostGet(B) (45_system.md R168): the content is returned, no state changes. -/
def hostGet (b : Buffer) (s : State) : Host.Outcome State Fault Refusal :=
  .next (s.reply (.contents (s.mem.contents b)))

/-- HostReadReg(r) (45_system.md R168): the value is returned, no state changes. -/
def hostReadReg (r : Reg) (s : State) : Host.Outcome State Fault Refusal :=
  .next (s.reply (.reg (s.regVal r)))

end Sys2Proof.Machine
end

