-- ==== Sys2Proof/Machine/PriorityQueue.lean ====
section
/-! DEFINITION. PQ, the priority queue of the Tree Builder (10_state.md R36, 41_tree_builder.md R113). It
exists only inside one BUILD. Log 4. -/

namespace Sys2Proof.Machine

/-- A member of PQ, a node index, with the frequency of its node: the key `(freq(NODE[n]), n)`. -/
structure Key where
  freq : Nat
  idx : Nat
  deriving DecidableEq, Repr

/-- The order of keys: frequency ascending, then node index ascending (41_tree_builder.md R113). -/
def keyLess (a b : Key) : Bool :=
  decide (a.freq < b.freq) || (decide (a.freq = b.freq) && decide (a.idx < b.idx))

/-- `PQ.insert(n)`. The queue is held in ascending key order, which nothing can observe (10_state.md
R36). -/
def pqInsert (k : Key) : List Key → List Key
  | [] => [k]
  | x :: q => if keyLess k x then k :: x :: q else x :: pqInsert k q

/-- `PQ.extract_min()`: the member with the least key, and the queue without it. -/
def pqExtractMin : List Key → Option (Key × List Key)
  | [] => none
  | k :: q => some (k, q)

end Sys2Proof.Machine
end

