-- ==== Sys2Proof/Machine/TreeBuilder.lean ====
section
/-! DEFINITION. The Tree Builder: BUILD (41_tree_builder.md). -/

namespace Sys2Proof.Machine

/-- Initialisation: for each FT entry in entry order a leaf is written at the next index and inserted
(41_tree_builder.md R112). -/
def loadLeaves : List FtEntry → List NodeRec → List Key → List NodeRec × List Key
  | [], N, q => (N, q)
  | e :: F, N, q => loadLeaves F (N ++ [.leaf e.sym e.count]) (pqInsert ⟨e.count, N.length⟩ q)

/-- One merge (41_tree_builder.md R114): the first member removed becomes the left child, the second the
right child, and the new node takes the next index. `none` when fewer than two members are left. -/
def mergeOnce (N : List NodeRec) (q : List Key) : Option (List NodeRec × List Key) :=
  match pqExtractMin q with
  | none => none
  | some (a, q1) =>
    match pqExtractMin q1 with
    | none => none
    | some (b, q2) =>
      some (N ++ [.internal (a.freq + b.freq) a.idx b.idx], pqInsert ⟨a.freq + b.freq, N.length⟩ q2)

/-- The `while PQ.size > 1` loop (41_tree_builder.md R115), given the number of passes it may make; "it
runs exactly `k - 1` times". -/
def mergeLoop : Nat → List NodeRec → List Key → List NodeRec × List Key
  | 0, N, q => (N, q)
  | n + 1, N, q =>
    match mergeOnce N q with
    | none => (N, q)
    | some (N', q') => mergeLoop n N' q'

/-- The nodes and the root BUILD makes from a table that passed its check (41_tree_builder.md R115). On a
non-empty table one member is left and is the root. Log 15. -/
def buildTree (F : List FtEntry) : List NodeRec × Root :=
  let (N0, q0) := loadLeaves F [] []
  let (N, q) := mergeLoop (F.length - 1) N0 q0
  match pqExtractMin q with
  | some (r, _) => (N, ⟨true, r.idx⟩)
  | none => (N, .null)

/-- BUILD (41_tree_builder.md R110 to R125): NODE and ROOT <- the tree of FT, or InvalidInput, or
Capacity. -/
def execBuild (s : State) : Host.Outcome State Fault Refusal :=
  let F := s.mem.ft
  .next (complete (buildStatus s.params F) .node
    (fun s => s.storeTree (buildTree F).1 (buildTree F).2) s)

end Sys2Proof.Machine
end

