-- ==== Sys2Proof/Machine/Step.lean ====
section
/-! DEFINITION. One step of the machine is one host transaction (45_system.md R170). -/

namespace Sys2Proof.Machine

/-- One step: the host's next transaction takes effect (45_system.md R166 to R169). With no transaction
pending nothing happens: "HUFF runs nothing until the host writes CMD" (70_reset_and_hazards.md R221,
log 5). A command runs whole in its step, so no transaction falls inside one (R15, log 11). -/
def step (s : State) : Host.Outcome State Fault Refusal :=
  match fetch s with
  | none => .next s
  | some (.cmd w, t) =>
    match decode w with
    | .ok i => exec i t
    | .error _ => .next (illegalCommand t)
  | some (.put c, t) => hostPut c t
  | some (.get b, t) => hostGet b t
  | some (.readReg r, t) => hostReadReg r t
  | some (.readCmd, _) => .refused .readOfCmd
  | some (.writeReg r _, _) => .refused (.writeOfReadOnlyRegister r)

/-- `s` with the host about to write the row's word to CMD. Log 10. -/
def State.withFetchWord (s : State) (nbits w : Nat) : State :=
  s.load [.cmd (BitVec.ofNat 8 (w % 2 ^ nbits))]

end Sys2Proof.Machine
end

