-- ==== Sys2Proof/Machine/Layout.lean ====
section
/-! DEFINITION. The record layouts of 30_encoding.md section 3, for finite parameters: how one buffer element
is laid out as a bit vector. "The layouts then matter only to a port that transports elements, and no
command rule depends on them." How a port transports them is left out (log 13). -/

namespace Sys2Proof.Machine

/-- FT entry, `{sym, count}` (30_encoding.md R87). -/
def packFtEntry (symW freqW : Nat) (e : FtEntry) : BitVec (symW + freqW) :=
  BitVec.ofNat symW e.sym ++ BitVec.ofNat freqW e.count

/-- The FT entry a vector holds (30_encoding.md R87). -/
def unpackFtEntry (symW freqW : Nat) (v : BitVec (symW + freqW)) : FtEntry :=
  ⟨(v.extractLsb' freqW symW).toNat, (v.extractLsb' 0 freqW).toNat⟩

/-- `P = max(SYM_W, 2*IDX_W)`, the payload width of a node record (30_encoding.md R88). -/
def payloadWidth (symW idxW : Nat) : Nat := max symW (2 * idxW)

/-- Node record, `{tag, freq, payload}` (30_encoding.md R88): tag 0 is a Leaf, tag 1 an Internal node, and
"the remaining payload bits are 0". -/
def packNode (symW freqW idxW : Nat) : NodeRec → BitVec (1 + freqW + payloadWidth symW idxW)
  | .leaf s f => 0#1 ++ BitVec.ofNat freqW f ++ (BitVec.ofNat symW s).setWidth (payloadWidth symW idxW)
  | .internal f l r =>
    1#1 ++ BitVec.ofNat freqW f ++
      (BitVec.ofNat idxW l ++ BitVec.ofNat idxW r).setWidth (payloadWidth symW idxW)

/-- The node record a vector holds: "a leaf is known by its tag" (30_encoding.md R88). -/
def unpackNode (symW freqW idxW : Nat) (v : BitVec (1 + freqW + payloadWidth symW idxW)) : NodeRec :=
  let f := (v.extractLsb' (payloadWidth symW idxW) freqW).toNat
  if v.getLsbD (freqW + payloadWidth symW idxW) then
    .internal f (v.extractLsb' idxW idxW).toNat (v.extractLsb' 0 idxW).toNat
  else .leaf (v.extractLsb' 0 symW).toNat f

/-- "the least width that holds the value" `n` (30_encoding.md R89). Log 12. -/
def bitLength (n : Nat) : Nat := if n = 0 then 0 else Nat.log2 n + 1

/-- The `code` field as a number: digit `i` is bit `i` (30_encoding.md R89). -/
def codeValue : List Digit → Nat
  | [] => 0
  | d :: ds => d.toNat + 2 * codeValue ds

/-- CT entry, `{sym, len, code}` (30_encoding.md R89). -/
def packCtEntry (symW codeMax : Nat) (e : CtEntry) : BitVec (symW + bitLength codeMax + codeMax) :=
  BitVec.ofNat symW e.sym ++ BitVec.ofNat (bitLength codeMax) e.code.length ++
    BitVec.ofNat codeMax (codeValue e.code)

/-- The CT entry a vector holds (30_encoding.md R89). -/
def unpackCtEntry (symW codeMax : Nat) (v : BitVec (symW + bitLength codeMax + codeMax)) : CtEntry :=
  ⟨(v.extractLsb' (bitLength codeMax + codeMax) symW).toNat,
    (List.range (v.extractLsb' codeMax (bitLength codeMax)).toNat).map v.getLsbD⟩

/-- The ROOT register, `{valid, idx}`: `valid` is bit `IDX_W` (10_state.md R27, 30_encoding.md R90). -/
def packRoot (idxW : Nat) (r : Root) : BitVec (1 + idxW) :=
  BitVec.ofBool r.valid ++ BitVec.ofNat idxW r.idx

/-- The ROOT value a vector holds. -/
def unpackRoot (idxW : Nat) (v : BitVec (1 + idxW)) : Root :=
  ⟨v.getLsbD idxW, (v.extractLsb' 0 idxW).toNat⟩

end Sys2Proof.Machine
end

