-- ==== Sys2Proof/Machine/Sequences.lean ====
section
/-! DEFINITION. Host sequences: a list of transactions run in order, and the pseudo-instructions COMPRESS and
ROUNDTRIP (46_pipeline_properties.md R180, R181). -/

namespace Sys2Proof.Machine

/-- The state after the host has done `ts`, one step each (45_system.md R173). -/
def runScript : List Transaction → State → Host.Outcome State Fault Refusal
  | [], s => .next s
  | t :: ts, s =>
    match step (s.load [t]) with
    | .next u => runScript ts u
    | .fault r => .fault r
    | .refused r => .refused r

/-- The word that starts a command (30_encoding.md R81). -/
def command (i : Instr) : Transaction := .cmd (encode i)

/-- COMPRESS(S) (46_pipeline_properties.md R180): after COUNT "host reads FT_LEN; empty input
short-circuits". Log 16. -/
def compress (S : List Symbol) (s : State) : Host.Outcome State Fault Refusal :=
  match runScript [.put (.sym S), command .count, .readReg .ftLen] s with
  | .next u =>
    if u.replies.getLast? = some (.reg (.len 0)) then .next u
    else runScript [command .build, command .table, command .encode] u
  | .fault r => .fault r
  | .refused r => .refused r

/-- ROUNDTRIP(S), `COMPRESS(S)` then DECODE (46_pipeline_properties.md R181). -/
def roundtrip (S : List Symbol) (s : State) : Host.Outcome State Fault Refusal :=
  match compress S s with
  | .next u => runScript [command .decode] u
  | .fault r => .fault r
  | .refused r => .refused r

end Sys2Proof.Machine
end

