-- ==== Sys2Proof/Safety.lean ====
section
/-! DEFINITION. What a safe state is, and the terms the statements about commands use: the invariants of
10_state.md section 5, paths in a tree, prefix-free codes, membership of the queue. -/

namespace Sys2Proof.Machine

/-! ## The tree in NODE (10_state.md R38) -/

/-- The frequency of node `i`, 0 where there is no such node. -/
def freqAt (N : List NodeRec) (i : Nat) : Nat :=
  match N[i]? with
  | some n => nodeFreq n
  | none => 0

/-- The symbols of the leaves, in index order. -/
def leafSymbols : List NodeRec → List Symbol
  | [] => []
  | .leaf s _ :: N => s :: leafSymbols N
  | .internal _ _ _ :: N => leafSymbols N

/-- Every occurrence of an index as the `left` or `right` of an internal node. -/
def childIndices : List NodeRec → List Nat
  | [] => []
  | .leaf _ _ :: N => childIndices N
  | .internal _ l r :: N => l :: r :: childIndices N

/-- `k`, the number of leaves of a tree of `NODE_CNT` nodes (10_state.md R38). -/
def leafCount (N : List NodeRec) : Nat := (N.length + 1) / 2

/-- Node `p` is as 10_state.md R38 has it: a leaf of positive frequency below index `k`; from `k` on an
internal node whose two children are different lower indices and whose frequency is the sum of theirs. -/
def nodeOk (N : List NodeRec) (p : Nat) : Bool :=
  match N[p]? with
  | none => false
  | some (.leaf _ f) => decide (p < leafCount N) && decide (1 ≤ f)
  | some (.internal f l r) =>
    decide (leafCount N ≤ p) && decide (l < p) && decide (r < p) && decide (l ≠ r) &&
      decide (f = freqAt N l + freqAt N r)

/-- NODE and ROOT hold a tree whose root is valid (10_state.md R38). -/
abbrev TreeValid (N : List NodeRec) (r : Root) : Prop :=
  r.valid = true ∧ N.length % 2 = 1 ∧ r.idx + 1 = N.length ∧ (leafSymbols N).Nodup ∧
    (∀ p < N.length, nodeOk N p = true) ∧
    ∀ i < N.length, (childIndices N).count i = if i + 1 < N.length then 1 else 0

/-- Tree well-formedness (10_state.md R38): the null root and no node, or a valid tree. -/
abbrev TreeWf (N : List NodeRec) (r : Root) : Prop := (r = .null ∧ N = []) ∨ TreeValid N r

/-! ## The code table in CT (10_state.md R39) -/

/-- Neither of two codes is a prefix of the other. -/
abbrev CodesApart (a b : List Digit) : Prop := ¬ a <+: b ∧ ¬ b <+: a

/-- Code-table well-formedness (10_state.md R39). -/
abbrev TableWf (T : List CtEntry) : Prop :=
  T = [] ∨ (T.length = 1 ∧ ∀ e ∈ T, e.code = []) ∨
    (2 ≤ T.length ∧ (T.map CtEntry.sym).Nodup ∧ (∀ e ∈ T, 1 ≤ e.code.length) ∧
      T.Pairwise fun a b => CodesApart a.code b.code)

/-! ## The invariant -/

/-- One buffer is within its capacity and holds elements of its type. -/
def contentsFit (p : Params) (c : Contents) : Bool :=
  fits (bufferCap p (contentsBuffer c)) (contentsLength c) && elementsFit p c

/-- The buffers are as 10_state.md R30 to R35 have them. Equal contents are equal lists (R26), so there is
no further form to keep. -/
def Memory.wf (p : Params) (m : Memory) : Bool :=
  contentsFit p (m.contents .sym) && contentsFit p (m.contents .ft) &&
    contentsFit p (m.contents .node) && contentsFit p (m.contents .ct) &&
    contentsFit p (m.contents .bits) && contentsFit p (m.contents .out)

/-- The invariant of every reachable state: legal parameters, buffers within their capacities and widths,
the tree of R38 and the table of R39. -/
abbrev State.Inv (s : State) : Prop :=
  s.params.wf = true ∧ s.mem.wf s.params = true ∧ TreeWf s.mem.node s.root ∧ TableWf s.mem.ct

/-- The transaction is one the hardware has (45_system.md R166 to R168). -/
def transactionExists (p : Params) : Transaction → Bool
  | .cmd _ => true
  | .put c => hostWritable (contentsBuffer c) && contentsFit p c
  | .get _ => true
  | .readReg _ => true
  | .readCmd => false
  | .writeReg _ _ => false

/-! ## Terms of the statements -/

/-- A table BUILD accepts (41_tree_builder.md R110): "non-empty ..., one entry per distinct symbol, all
counts > 0". -/
abbrev Buildable (F : List FtEntry) : Prop :=
  F ≠ [] ∧ (∀ e ∈ F, 1 ≤ e.count) ∧ (F.map FtEntry.sym).Nodup

/-- The node reached from node `n` along digits, 0 going left and 1 going right. -/
def follow (N : List NodeRec) : Nat → List Digit → Option Nat
  | n, [] => some n
  | n, d :: ds =>
    match N[n]? with
    | some (.internal _ l r) => follow N (if d then r else l) ds
    | some (.leaf _ _) => none
    | none => none

/-- The digits `c` lead from node `n` to a leaf with symbol `a`. -/
def LeadsToLeaf (N : List NodeRec) (n : Nat) (c : List Digit) (a : Symbol) : Prop :=
  ∃ m f, follow N n c = some m ∧ N[m]? = some (.leaf a f)

/-- The digits `E` are the codes of the symbols `S`, one after the other. -/
def Parses (N : List NodeRec) (root : Nat) (E : List Digit) (S : List Symbol) : Prop :=
  ∃ ps : List (List Digit × Symbol), E = (ps.map Prod.fst).flatten ∧ S = ps.map Prod.snd ∧
    ∀ q ∈ ps, LeadsToLeaf N root q.1 q.2

/-- Node `a` has the lower key (41_tree_builder.md R113). -/
abbrev NodeLower (N : List NodeRec) (a b : Nat) : Prop :=
  freqAt N a < freqAt N b ∨ (freqAt N a = freqAt N b ∧ a < b)

/-- Node `x` waits in the queue when node `p` is about to be made: it is older than `p` and is no child of
a node made before `p` (41_tree_builder.md R112, R114). -/
abbrev Waiting (N : List NodeRec) (p x : Nat) : Prop := x < p ∧ x ∉ childIndices (N.take p)

/-- No code of a symbol of `A` is a prefix of the code of another one. -/
abbrev PrefixFreeOn (A : List Symbol) (code : Symbol → List Digit) : Prop :=
  ∀ a ∈ A, ∀ b ∈ A, a ≠ b → ¬ code a <+: code b

/-- `sum over entries of count * len(code)` (41_tree_builder.md R120). -/
def totalCost (F : List FtEntry) (code : Symbol → List Digit) : Nat :=
  (F.map fun e => e.count * (code e.sym).length).sum

/-- The table of a sequence of symbols: its distinct symbols in order of first occurrence, each with the
number of its occurrences (40_frequency_counter.md R101). -/
def occurrenceTable (S : List Symbol) : List FtEntry := S.eraseDups.map fun a => ⟨a, S.count a⟩

/-- Parameters large enough that the pipeline on `S` meets no Capacity (46_pipeline_properties.md R182):
FT holds its distinct symbols, frequencies go up to its length, BITS and OUT hold the results. -/
abbrev RoomFor (p : Params) (S : List Symbol) : Prop :=
  fits p.kMax S.eraseDups.length = true ∧ freqFits p S.length = true ∧
    fits p.mMax (S.length * (S.eraseDups.length - 1)) = true ∧ fits p.oMax S.length = true

end Sys2Proof.Machine
end

