-- ==== Sys2Proof/Certificates/Slice0/Obligations.lean ====
section
/-! DEFINITION. The statements for the provers, each from the numbered rules of spec/. They are listed in
OBLIGATIONS.json. -/

open Sys2Proof Sys2Proof.Machine

/-! ## Command words (30_encoding.md) -/

/-- 30_encoding.md R81: a word decodes to a command exactly when `rsv = 00000` and `op` is `000` to `101`,
and the word of each command is the one of the opcode map. -/
def Obligations.DecodeAcceptsExactlySixWords : Prop :=
  (∀ w : Byte, (∃ i, decode w = .ok i) ↔
    (w.extractLsb' 3 5 = 0b00000#5 ∧ (w.extractLsb' 0 3).toNat ≤ 0b101)) ∧
  (∀ w : Byte, decode w = .ok .clear ↔ w = 0x00#8) ∧
  (∀ w : Byte, decode w = .ok .count ↔ w = 0x01#8) ∧
  (∀ w : Byte, decode w = .ok .build ↔ w = 0x02#8) ∧
  (∀ w : Byte, decode w = .ok .table ↔ w = 0x03#8) ∧
  (∀ w : Byte, decode w = .ok .encode ↔ w = 0x04#8) ∧
  (∀ w : Byte, decode w = .ok .decode ↔ w = 0x05#8)

/-- 30_encoding.md R80, R81, R84: the encoder and the decoder agree in both directions. -/
def Obligations.EncoderAndDecoderAgree : Prop :=
  (∀ i : Instr, i.wellFormed = true → decode (encode i) = .ok i) ∧
  (∀ (w : Byte) (i : Instr), decode w = .ok i → encode i = w)

/-! ## Steps (45_system.md) -/

/-- 45_system.md R166: a HostCmd whose word decodes executes that command, in one step. -/
def Obligations.StepRunsDecodedCommand : Prop :=
  ∀ (s : State) (w : Byte) (rest : List Transaction) (i : Instr),
    s.script = .cmd w :: rest → decode w = .ok i → step s = exec i { s with script := rest }

/-- 45_system.md R169, 30_encoding.md R83: a word with a non-zero reserved field, or with `op` 110 or 111,
sets STATUS to IllegalCommand and changes nothing else. -/
def Obligations.IllegalWordOnlySetsStatus : Prop :=
  ∀ (s : State) (w : Byte) (rest : List Transaction), s.script = .cmd w :: rest →
    (w.extractLsb' 3 5 ≠ 0b00000#5 ∨ w.extractLsb' 0 3 = 0b110#3 ∨ w.extractLsb' 0 3 = 0b111#3) →
    step s = .next { s with script := rest, status := .illegalCommand }

/-- The model's choice (log 5): with no transaction pending a step changes nothing. 70_reset_and_hazards.md
R221 says only that "HUFF runs nothing until the host writes CMD". -/
def Obligations.IdleStepChangesNothing : Prop :=
  ∀ s : State, s.script = [] → step s = .next s

/-- 45_system.md R167: HostPut to SYM, FT or BITS of a sequence that fits replaces that buffer's content
and changes nothing else, STATUS included; a put longer than the capacity, of elements not of the buffer's
type, or to NODE, CT or OUT, and a write of a register other than CMD, have no step. That a put of elements
not of the buffer's type has no step is the model's deduction (log 7) from R167's "`L` a sequence of `B`'s
element type" and 00_scope.md R10; R167's own "no step" names the other cases. -/
def Obligations.HostPutReplacesOneBuffer : Prop :=
  (∀ (s : State) (L : List Symbol) (rest : List Transaction), s.script = .put (.sym L) :: rest →
    fits s.params.nMax L.length = true → (∀ x ∈ L, symFits s.params x = true) →
    step s = .next { s with script := rest, mem := { s.mem with sym := L } }) ∧
  (∀ (s : State) (L : List FtEntry) (rest : List Transaction), s.script = .put (.ft L) :: rest →
    fits s.params.kMax L.length = true →
    (∀ e ∈ L, symFits s.params e.sym = true ∧ freqFits s.params e.count = true) →
    step s = .next { s with script := rest, mem := { s.mem with ft := L } }) ∧
  (∀ (s : State) (L : List Digit) (rest : List Transaction), s.script = .put (.bits L) :: rest →
    fits s.params.mMax L.length = true →
    step s = .next { s with script := rest, mem := { s.mem with bits := L } }) ∧
  ∀ (s : State) (t : Transaction) (rest : List Transaction), s.script = t :: rest →
    ((∃ L, t = .put (.node L)) ∨ (∃ L, t = .put (.ct L)) ∨ (∃ L, t = .put (.out L)) ∨
      (∃ L, t = .put (.sym L) ∧
        (fits s.params.nMax L.length = false ∨ ∃ x ∈ L, symFits s.params x = false)) ∨
      (∃ L, t = .put (.ft L) ∧
        (fits s.params.kMax L.length = false ∨
          ∃ e ∈ L, symFits s.params e.sym = false ∨ freqFits s.params e.count = false)) ∨
      (∃ L, t = .put (.bits L) ∧ fits s.params.mMax L.length = false) ∨
      ∃ r v, t = .writeReg r v) →
    ∃ r, step s = .refused r

/-- 45_system.md R168, 10_state.md R23, R25 to R27: HostGet returns the whole content, HostReadReg the
register's value (STATUS as its code, a length register as the number of elements, ROOT as its fields),
neither changes any state, and a read of CMD has no step. -/
def Obligations.HostReadsReturnAndChangeNothing : Prop :=
  (∀ (s : State) (b : Buffer) (rest : List Transaction), s.script = .get b :: rest →
    step s = .next { s with script := rest, replies := s.replies ++ [.contents (match b with
      | .sym => .sym s.mem.sym
      | .ft => .ft s.mem.ft
      | .node => .node s.mem.node
      | .ct => .ct s.mem.ct
      | .bits => .bits s.mem.bits
      | .out => .out s.mem.out)] }) ∧
  (∀ (s : State) (r : Reg) (rest : List Transaction), s.script = .readReg r :: rest →
    step s = .next { s with script := rest, replies := s.replies ++ [.reg (match r with
      | .status => .status (match s.status with
        | .ok => 0#3
        | .invalidInput => 1#3
        | .lookupError => 2#3
        | .malformedStream => 3#3
        | .illegalCommand => 4#3
        | .capacity => 5#3)
      | .symLen => .len s.mem.sym.length
      | .ftLen => .len s.mem.ft.length
      | .nodeCnt => .len s.mem.node.length
      | .root => .root s.root.valid s.root.idx
      | .ctLen => .len s.mem.ct.length
      | .bitsLen => .len s.mem.bits.length
      | .outLen => .len s.mem.out.length)] }) ∧
  ∀ (s : State) (rest : List Transaction), s.script = .readCmd :: rest → step s = .refused .readOfCmd

/-- 70_reset_and_hazards.md R222: "The parameters ... cannot be changed by software": no step changes
them. -/
def Obligations.StepKeepsParameters : Prop :=
  ∀ s t : State, step s = .next t → t.params = s.params

/-! ## Reset and CLEAR -/

/-- 10_state.md R40: after reset and after CLEAR STATUS is OK, every length is 0, every buffer holds no
element and ROOT is null. The parameters of `State.reset` are the model's choice (log 1); this statement
holds for all parameters. -/
def Obligations.ResetLeavesEverythingEmpty : Prop :=
  State.reset = State.resetWith State.reset.params ∧
  ∀ s : State, ((∃ p, s = State.resetWith p) ∨ ∃ t, exec .clear t = .next s) →
    s.status = .ok ∧ (∀ b : Buffer, s.len b = 0 ∧ ∀ i, s.elem b i = none) ∧
      s.root.valid = false ∧ s.root.idx = 0

/-- 70_reset_and_hazards.md R222: what each command does in the reset state, whatever the parameters. -/
def Obligations.CommandsFromReset : Prop :=
  ∀ p : Params, let s := State.resetWith p
    exec .count s = .next s ∧ exec .build s = .next { s with status := .invalidInput } ∧
      exec .table s = .next s ∧ exec .encode s = .next s ∧ exec .decode s = .next s ∧
      exec .clear s = .next s

/-- 45_system.md R165: CLEAR completes in every state; "The state after CLEAR is the reset state of
10_state.md rule R40, exactly." -/
def Obligations.ClearRestoresReset : Prop :=
  ∀ s : State, exec .clear s =
    .next { State.resetWith s.params with script := s.script, replies := s.replies }

/-! ## COUNT (40_frequency_counter.md) -/

/-- 40_frequency_counter.md R100: when the table fits, COUNT completes: FT becomes the distinct symbols of
SYM in order of first occurrence, each with its number of occurrences. -/
def Obligations.CountWritesOccurrenceTable : Prop :=
  ∀ s : State, fits s.params.kMax s.mem.sym.eraseDups.length = true →
    (∀ a ∈ s.mem.sym, freqFits s.params (s.mem.sym.count a) = true) →
    exec .count s =
      .next { s with status := .ok, mem := { s.mem with ft := occurrenceTable s.mem.sym } }

/-- 40_frequency_counter.md R101, (a) to (e) and its last sentence. -/
def Obligations.CountTableProperties : Prop :=
  ∀ s t : State, exec .count s = .next t → t.status = .ok →
    ((t.mem.ft.map FtEntry.sym).Nodup ∧ ∀ a, a ∈ t.mem.ft.map FtEntry.sym ↔ a ∈ s.mem.sym) ∧
    (∀ e ∈ t.mem.ft, e.count = s.mem.sym.count e.sym ∧ 1 ≤ e.count) ∧
    (t.mem.ft.map FtEntry.count).sum = s.mem.sym.length ∧
    (∀ (i j : Nat) (e f : FtEntry), t.mem.ft[i]? = some e → t.mem.ft[j]? = some f →
      (i < j ↔ s.mem.sym.idxOf e.sym < s.mem.sym.idxOf f.sym)) ∧
    (t.mem.ft.length = 0 ↔ s.mem.sym.length = 0) ∧
    (s.mem.sym ≠ [] → Buildable t.mem.ft)

/-- 40_frequency_counter.md R102: too many distinct symbols, or one symbol too often, is Capacity, with FT
emptied and nothing else changed; with `K_MAX = 2^SYM_W` and `2^FREQ_W > N_MAX` it cannot happen in a
state whose buffers are well formed. -/
def Obligations.CountCapacityFailure : Prop :=
  (∀ s : State, (fits s.params.kMax s.mem.sym.eraseDups.length = false ∨
      ∃ a ∈ s.mem.sym, freqFits s.params (s.mem.sym.count a) = false) →
    exec .count s = .next { s with status := .capacity, mem := { s.mem with ft := [] } }) ∧
  (∀ (s : State) (w f n : Nat), s.mem.wf s.params = true → s.params.symW = some w →
    s.params.kMax = some (2 ^ w) → s.params.freqW = some f → s.params.nMax = some n → n < 2 ^ f →
    ∃ t, exec .count s = .next t ∧ t.status = .ok)

/-! ## BUILD (41_tree_builder.md) -/

/-- 41_tree_builder.md R111, R117: an empty table, a zero count or a repeated symbol is InvalidInput,
whatever the sum; a good table whose counts sum to more than `2^FREQ_W - 1` is Capacity; in both cases
NODE_CNT is 0, ROOT null, and nothing else changed. -/
def Obligations.BuildInputCheck : Prop :=
  (∀ s : State, (s.mem.ft = [] ∨ (∃ e ∈ s.mem.ft, e.count = 0) ∨ ¬ (s.mem.ft.map FtEntry.sym).Nodup) →
    exec .build s = .next
      { s with status := .invalidInput, root := ⟨false, 0⟩, mem := { s.mem with node := [] } }) ∧
  (∀ s : State, Buildable s.mem.ft →
    freqFits s.params (s.mem.ft.map FtEntry.count).sum = false →
    exec .build s = .next
      { s with status := .capacity, root := ⟨false, 0⟩, mem := { s.mem with node := [] } })

/-- 41_tree_builder.md R119: a good table whose sum fits is built, and the shape of the result. -/
def Obligations.BuildResultShape : Prop :=
  ∀ s : State, Buildable s.mem.ft → freqFits s.params (s.mem.ft.map FtEntry.count).sum = true →
    ∃ N : List NodeRec,
      exec .build s = .next { s with
        status := .ok, root := ⟨true, 2 * s.mem.ft.length - 2⟩, mem := { s.mem with node := N } } ∧
      N.length = 2 * s.mem.ft.length - 1 ∧
      (∀ (i : Nat) (e : FtEntry), s.mem.ft[i]? = some e → N[i]? = some (.leaf e.sym e.count)) ∧
      (∀ p, s.mem.ft.length ≤ p → p < N.length → ∃ l r, l < p ∧ r < p ∧
        N[p]? = some (.internal (freqAt N l + freqAt N r) l r)) ∧
      freqAt N (2 * s.mem.ft.length - 2) = (s.mem.ft.map FtEntry.count).sum ∧
      (∀ p q, s.mem.ft.length ≤ p → p ≤ q → q < N.length → freqAt N p ≤ freqAt N q) ∧
      TreeWf N ⟨true, 2 * s.mem.ft.length - 2⟩

/-- 41_tree_builder.md R116: a table of one entry gives the single leaf as the root. -/
def Obligations.BuildOfSingleEntry : Prop :=
  ∀ (s : State) (e : FtEntry), s.mem.ft = [e] → 1 ≤ e.count → freqFits s.params e.count = true →
    exec .build s = .next { s with
      status := .ok, root := ⟨true, 0⟩, mem := { s.mem with node := [.leaf e.sym e.count] } }

/-- 41_tree_builder.md R113, R114: every merged node `p` has as left child the lowest and as right child the
second lowest, by `(freq, node index)`, of the nodes waiting in the queue when it was made, and its
frequency is their sum; a merge lowers the size of the queue by exactly one. -/
def Obligations.BuildMergesTwoLowest : Prop :=
  (∀ (N N' : List NodeRec) (q q' : List Key), mergeOnce N q = some (N', q') →
    q'.length + 1 = q.length) ∧
  ∀ s t : State, exec .build s = .next t → t.status = .ok →
    t.mem.node.length = 2 * s.mem.ft.length - 1 ∧
    ∀ p, s.mem.ft.length ≤ p → p < t.mem.node.length →
      ∃ l r, t.mem.node[p]? = some (.internal (freqAt t.mem.node l + freqAt t.mem.node r) l r) ∧
        Waiting t.mem.node p l ∧ Waiting t.mem.node p r ∧ NodeLower t.mem.node l r ∧
        ∀ x, Waiting t.mem.node p x → x ≠ l → x ≠ r → NodeLower t.mem.node r x

/-- 41_tree_builder.md R120: the code lengths of the tree BUILD writes have the least total cost of all
prefix-free codes of the symbols of FT. -/
def Obligations.BuildMinimisesTotalCodeLength : Prop :=
  ∀ s t : State, exec .build s = .next t → t.status = .ok →
    ∃ (u : State) (code : Symbol → List Digit), exec .table t = .next u ∧
      (∀ e ∈ s.mem.ft, (⟨e.sym, code e.sym⟩ : CtEntry) ∈ u.mem.ct) ∧
      ∀ other : Symbol → List Digit, PrefixFreeOn (s.mem.ft.map FtEntry.sym) other →
        totalCost s.mem.ft code ≤ totalCost s.mem.ft other

/-! ## TABLE (42_code_table_generator.md) -/

/-- 42_code_table_generator.md R131: on a well-formed tree TABLE completes; CT gets one entry for each leaf,
its code the digits of the path from the root, in left-to-right leaf order (where two codes first differ
the earlier has 0 and the later 1); with a null root CT becomes empty; STATUS is OK and nothing else
changes. -/
def Obligations.TableRecordsLeafPaths : Prop :=
  (∀ s : State, s.root.valid = false →
    exec .table s = .next { s with status := .ok, mem := { s.mem with ct := [] } }) ∧
  ∀ s : State, TreeValid s.mem.node s.root →
    ∃ T : List CtEntry,
      exec .table s = .next { s with status := .ok, mem := { s.mem with ct := T } } ∧
      T.length = leafCount s.mem.node ∧
      (∀ a c, (⟨a, c⟩ : CtEntry) ∈ T ↔ LeadsToLeaf s.mem.node s.root.idx c a) ∧
      T.Pairwise fun x y =>
        ∃ c u v, x.code = c ++ false :: u ∧ y.code = c ++ true :: v

/-- 42_code_table_generator.md R132, R133: the degenerate tree gives its symbol the empty code; the null
root gives the empty table; both end OK. -/
def Obligations.TableOfLeafRootAndNullRoot : Prop :=
  (∀ (s : State) (a : Symbol) (f : Nat), s.mem.node = [.leaf a f] → s.root = ⟨true, 0⟩ →
    exec .table s = .next { s with status := .ok, mem := { s.mem with ct := [⟨a, []⟩] } }) ∧
  (∀ s : State, s.root.valid = false →
    exec .table s = .next { s with status := .ok, mem := { s.mem with ct := [] } })

/-- 42_code_table_generator.md R134 (a) to (d) and (f), 41_tree_builder.md R124: the entries are one per
leaf with distinct symbols; code lengths are at most `k - 1`, and at least 1 when `k >= 2`; the codes are
prefix-free and, for `k >= 2`, complete; the first is all 0 and the last all 1. -/
def Obligations.TableCodesPrefixFreeAndComplete : Prop :=
  ∀ s t : State, TreeValid s.mem.node s.root → exec .table s = .next t →
    t.mem.ct.length = leafCount s.mem.node ∧ (t.mem.ct.map CtEntry.sym).Nodup ∧
    (∀ e ∈ t.mem.ct, e.code.length ≤ leafCount s.mem.node - 1) ∧
    (2 ≤ leafCount s.mem.node → ∀ e ∈ t.mem.ct, 1 ≤ e.code.length) ∧
    (t.mem.ct.Pairwise fun a b => CodesApart a.code b.code) ∧
    (2 ≤ leafCount s.mem.node →
      ∀ E : List Digit, ∃ e ∈ t.mem.ct, E <+: e.code ∨ e.code <+: E) ∧
    (∃ e f, t.mem.ct.head? = some e ∧ t.mem.ct.getLast? = some f ∧
      (∀ d ∈ e.code, d = false) ∧ ∀ d ∈ f.code, d = true)

/-- 42_code_table_generator.md R135: from a state of the invariant TABLE ends OK and its result fits CT. -/
def Obligations.TableAlwaysEndsOk : Prop :=
  ∀ s : State, s.Inv → ∃ t, exec .table s = .next t ∧ t.status = .ok ∧
    fits s.params.kMax t.mem.ct.length = true ∧
    ∀ e ∈ t.mem.ct, fits s.params.codeMax e.code.length = true

/-! ## ENCODE (43_encoder.md) -/

/-- 43_encoder.md R140: when every symbol of SYM has its entry in CT and the digits fit, ENCODE completes:
BITS becomes the concatenation of the codes in symbol order; nothing else changes. -/
def Obligations.EncodeConcatenatesCodes : Prop :=
  ∀ (s : State) (code : Symbol → List Digit), (s.mem.ct.map CtEntry.sym).Nodup →
    (∀ x ∈ s.mem.sym, (⟨x, code x⟩ : CtEntry) ∈ s.mem.ct) →
    fits s.params.mMax (s.mem.sym.flatMap code).length = true →
    exec .encode s =
      .next { s with status := .ok, mem := { s.mem with bits := s.mem.sym.flatMap code } }

/-- 43_encoder.md R141, R145: a symbol of SYM with no entry in CT, at any index, is LookupError, whatever
the length would have been; else more than `M_MAX` digits is Capacity; BITS is emptied and nothing else
changed. With `M_MAX >= N_MAX * CODE_MAX` and well-formed buffers Capacity cannot happen. -/
def Obligations.EncodeFailures : Prop :=
  (∀ s : State, (∃ x ∈ s.mem.sym, ∀ e ∈ s.mem.ct, e.sym ≠ x) →
    exec .encode s = .next { s with status := .lookupError, mem := { s.mem with bits := [] } }) ∧
  (∀ (s : State) (code : Symbol → List Digit), (s.mem.ct.map CtEntry.sym).Nodup →
    (∀ x ∈ s.mem.sym, (⟨x, code x⟩ : CtEntry) ∈ s.mem.ct) →
    fits s.params.mMax (s.mem.sym.flatMap code).length = false →
    exec .encode s = .next { s with status := .capacity, mem := { s.mem with bits := [] } }) ∧
  (∀ (s : State) (m n c : Nat), s.mem.wf s.params = true → s.params.mMax = some m →
    s.params.nMax = some n → s.params.codeMax = some c → n * c ≤ m →
    ∃ t, exec .encode s = .next t ∧ t.status ≠ .capacity)

/-- 43_encoder.md R144: the length law; its value after COUNT, BUILD and TABLE on the same SYM; and empty
SYM gives empty BITS with OK, whatever CT holds. -/
def Obligations.EncodeLengthLaw : Prop :=
  (∀ (s t : State) (code : Symbol → List Digit), (s.mem.ct.map CtEntry.sym).Nodup →
    (∀ x ∈ s.mem.sym, (⟨x, code x⟩ : CtEntry) ∈ s.mem.ct) →
    exec .encode s = .next t → t.status = .ok →
    t.mem.bits.length = (s.mem.sym.map fun x => (code x).length).sum) ∧
  (∀ (s t u v w : State) (code : Symbol → List Digit), exec .count s = .next t → t.status = .ok →
    exec .build t = .next u → u.status = .ok → exec .table u = .next v →
    exec .encode v = .next w → w.status = .ok →
    (∀ e ∈ t.mem.ft, (⟨e.sym, code e.sym⟩ : CtEntry) ∈ v.mem.ct) →
    w.mem.bits.length = totalCost t.mem.ft code) ∧
  (∀ s : State, s.mem.sym = [] →
    exec .encode s = .next { s with status := .ok, mem := { s.mem with bits := [] } })

/-- 43_encoder.md R142: with the one-entry table of the empty code, a SYM of that symbol alone gives empty
BITS with OK whatever its length, and any other symbol is LookupError. -/
def Obligations.EncodeWithDegenerateTable : Prop :=
  ∀ (s : State) (a : Symbol), s.mem.ct = [⟨a, []⟩] →
    ((∀ x ∈ s.mem.sym, x = a) →
      exec .encode s = .next { s with status := .ok, mem := { s.mem with bits := [] } }) ∧
    ((∃ x ∈ s.mem.sym, x ≠ a) →
      exec .encode s = .next { s with status := .lookupError, mem := { s.mem with bits := [] } })

/-! ## DECODE (44_decoder.md) -/

/-- 44_decoder.md R151: with the null root, empty BITS gives empty OUT with OK and non-empty BITS is
MalformedStream. -/
def Obligations.DecodeWithNullRoot : Prop :=
  ∀ s : State, s.root.valid = false →
    (s.mem.bits = [] →
      exec .decode s = .next { s with status := .ok, mem := { s.mem with out := [] } }) ∧
    (s.mem.bits ≠ [] →
      exec .decode s = .next { s with status := .malformedStream, mem := { s.mem with out := [] } })

/-- 44_decoder.md R152: on the degenerate tree empty BITS gives the leaf's symbol `freq` times, and
non-empty BITS is MalformedStream. -/
def Obligations.DecodeDegenerateTree : Prop :=
  ∀ (s : State) (a : Symbol) (f : Nat), s.mem.node = [.leaf a f] → s.root = ⟨true, 0⟩ →
    (s.mem.bits = [] → fits s.params.oMax f = true →
      exec .decode s = .next
        { s with status := .ok, mem := { s.mem with out := List.replicate f a } }) ∧
    (s.mem.bits ≠ [] →
      exec .decode s = .next { s with status := .malformedStream, mem := { s.mem with out := [] } })

/-- 44_decoder.md R156, R155: with an internal root, BITS that is a concatenation of codes of the tree
decodes to exactly those symbols with OK; the parse is unique, and the codes are those of the table that
TABLE derives. -/
def Obligations.DecodeReadsCodeSequences : Prop :=
  ∀ s : State, TreeValid s.mem.node s.root → 2 ≤ leafCount s.mem.node →
    (∀ S : List Symbol, Parses s.mem.node s.root.idx s.mem.bits S →
      fits s.params.oMax S.length = true →
      exec .decode s = .next { s with status := .ok, mem := { s.mem with out := S } }) ∧
    (∀ S S' : List Symbol, Parses s.mem.node s.root.idx s.mem.bits S →
      Parses s.mem.node s.root.idx s.mem.bits S' → S = S') ∧
    (∀ (u : State) (S : List Symbol) (code : Symbol → List Digit), exec .table s = .next u →
      (∀ x ∈ S, (⟨x, code x⟩ : CtEntry) ∈ u.mem.ct) → s.mem.bits = S.flatMap code →
      Parses s.mem.node s.root.idx s.mem.bits S)

/-- 44_decoder.md R154: on a well-formed tree DECODE ends with MalformedStream, OUT emptied and nothing else
changed, in exactly three cases: the root internal and BITS no concatenation of codes, so that it ends
mid-path; the root a leaf and BITS not empty; the root null and BITS not empty. -/
def Obligations.DecodeMalformedExactly : Prop :=
  ∀ s : State, TreeWf s.mem.node s.root →
    (((s.root.valid = true ∧ 2 ≤ leafCount s.mem.node ∧
          ∀ S, ¬ Parses s.mem.node s.root.idx s.mem.bits S) ∨
        (s.root.valid = true ∧ leafCount s.mem.node = 1 ∧ s.mem.bits ≠ []) ∨
        (s.root.valid = false ∧ s.mem.bits ≠ [])) →
      exec .decode s = .next { s with status := .malformedStream, mem := { s.mem with out := [] } }) ∧
    (∀ t, exec .decode s = .next t → t.status = .malformedStream →
      (s.root.valid = true ∧ 2 ≤ leafCount s.mem.node ∧
          ∀ S, ¬ Parses s.mem.node s.root.idx s.mem.bits S) ∨
        (s.root.valid = true ∧ leafCount s.mem.node = 1 ∧ s.mem.bits ≠ []) ∨
        (s.root.valid = false ∧ s.mem.bits ≠ []))

/-- 44_decoder.md R157: a decoded sequence longer than `O_MAX` is Capacity, OUT emptied; with an internal
root a sequence has at most `BITS_LEN` symbols; the degenerate tree's sequence has `freq` symbols. -/
def Obligations.DecodeCapacityFailure : Prop :=
  (∀ (s : State) (S : List Symbol), TreeValid s.mem.node s.root → 2 ≤ leafCount s.mem.node →
    Parses s.mem.node s.root.idx s.mem.bits S →
    S.length ≤ s.mem.bits.length ∧
    (fits s.params.oMax S.length = false →
      exec .decode s = .next { s with status := .capacity, mem := { s.mem with out := [] } })) ∧
  (∀ (s : State) (a : Symbol) (f : Nat), s.mem.node = [.leaf a f] → s.root = ⟨true, 0⟩ →
    s.mem.bits = [] → fits s.params.oMax f = false →
    exec .decode s = .next { s with status := .capacity, mem := { s.mem with out := [] } })

/-- 46_pipeline_properties.md R187 in general form: good codes followed by a non-empty proper prefix of a
code, "a trailing incomplete code", is MalformedStream. -/
def Obligations.DanglingDigitsAreMalformed : Prop :=
  ∀ (s : State) (S : List Symbol) (E tail more : List Digit) (a : Symbol),
    TreeValid s.mem.node s.root → Parses s.mem.node s.root.idx E S →
    LeadsToLeaf s.mem.node s.root.idx (tail ++ more) a → tail ≠ [] → more ≠ [] →
    s.mem.bits = E ++ tail →
    exec .decode s = .next { s with status := .malformedStream, mem := { s.mem with out := [] } }

/-! ## The pipeline (46_pipeline_properties.md) -/

/-- 46_pipeline_properties.md R182, R188: for every non-empty SYM, in any state, COUNT, BUILD, TABLE, ENCODE
and DECODE in turn complete; when no Capacity occurs each ends OK and OUT = SYM, which is unchanged; and
parameters with room for the results let no Capacity occur. For empty SYM the host sequence ROUNDTRIP from
the reset state ends OK with OUT = SYM = empty. -/
def Obligations.RoundTripRecoversInput : Prop :=
  (∀ s : State, s.mem.sym ≠ [] → ∃ t1 t2 t3 t4 t5 : State,
    (exec .count s = .next t1 ∧ exec .build t1 = .next t2 ∧ exec .table t2 = .next t3 ∧
      exec .encode t3 = .next t4 ∧ exec .decode t4 = .next t5) ∧
    (t1.status ≠ .capacity → t2.status ≠ .capacity → t4.status ≠ .capacity → t5.status ≠ .capacity →
      t1.status = .ok ∧ t2.status = .ok ∧ t3.status = .ok ∧ t4.status = .ok ∧ t5.status = .ok ∧
        t5.mem.out = s.mem.sym ∧ t5.mem.sym = s.mem.sym ∧ t5.len .out = s.len .sym) ∧
    (RoomFor s.params s.mem.sym → t1.status ≠ .capacity ∧ t2.status ≠ .capacity ∧
      t4.status ≠ .capacity ∧ t5.status ≠ .capacity)) ∧
  ∀ p : Params, ∃ t, roundtrip [] (State.resetWith p) = .next t ∧ t.status = .ok ∧ t.mem.out = [] ∧
    t.mem.sym = []

/-- 46_pipeline_properties.md R181, R182, R186: the host sequence ROUNDTRIP(S) from the reset state ends
with STATUS = OK and OUT = SYM = S, for every S, the empty one included; for the empty one NODE, CT and
BITS stay empty and ROOT null. -/
def Obligations.RoundtripSequenceFromReset : Prop :=
  ∀ (p : Params) (S : List Symbol), fits p.nMax S.length = true → (∀ x ∈ S, symFits p x = true) →
    RoomFor p S →
    ∃ t, roundtrip S (State.resetWith p) = .next t ∧ t.status = .ok ∧ t.mem.sym = S ∧
      t.mem.out = S ∧ (S = [] → t.mem = .empty ∧ t.root = ⟨false, 0⟩)

/-! ## Statuses, failures, frames -/

/-- 60_exceptions.md R208: the codes each command, and an undecodable word, can end with, and that each does
end with each of them in some state; Capacity only with finite parameters. -/
def Obligations.StatusCodesOfCommands : Prop :=
  (∀ s t : State, exec .clear s = .next t → t.status = .ok) ∧
  (∀ s t : State, exec .count s = .next t →
    t.status = .ok ∨ (t.status = .capacity ∧ s.params ≠ .unbounded)) ∧
  (∀ s t : State, exec .build s = .next t →
    t.status = .ok ∨ t.status = .invalidInput ∨ (t.status = .capacity ∧ s.params ≠ .unbounded)) ∧
  (∀ s t : State, exec .table s = .next t → t.status = .ok) ∧
  (∀ s t : State, exec .encode s = .next t →
    t.status = .ok ∨ t.status = .lookupError ∨ (t.status = .capacity ∧ s.params ≠ .unbounded)) ∧
  (∀ s t : State, exec .decode s = .next t →
    t.status = .ok ∨ t.status = .malformedStream ∨ (t.status = .capacity ∧ s.params ≠ .unbounded)) ∧
  (∀ (s t : State) (w : Byte) (rest : List Transaction), s.script = .cmd w :: rest →
    (∀ i, decode w ≠ .ok i) → step s = .next t → t.status = .illegalCommand) ∧
  ∀ (i : Instr) (c : Status), (i, c) ∈ [(Instr.clear, Status.ok), (.count, .ok), (.count, .capacity),
      (.build, .ok), (.build, .invalidInput), (.build, .capacity), (.table, .ok), (.encode, .ok),
      (.encode, .lookupError), (.encode, .capacity), (.decode, .ok), (.decode, .malformedStream),
      (.decode, .capacity)] →
    ∃ s t : State, exec i s = .next t ∧ t.status = c

/-- 60_exceptions.md R206: a command that ends with an error has emptied its destination and changed
nothing else but STATUS. -/
def Obligations.FailureEmptiesDestination : Prop :=
  ∀ (i : Instr) (s t : State), exec i s = .next t → t.status ≠ .ok →
    match i with
    | .clear => False
    | .count => t = { s with status := t.status, mem := { s.mem with ft := [] } }
    | .build =>
      t = { s with status := t.status, root := ⟨false, 0⟩, mem := { s.mem with node := [] } }
    | .table => False
    | .encode => t = { s with status := t.status, mem := { s.mem with bits := [] } }
    | .decode => t = { s with status := t.status, mem := { s.mem with out := [] } }

/-- 20_memory.md R61: the frame of each command, ending OK or not: beside STATUS it changes its destination
(the named field, and ROOT for BUILD) and nothing else; so every element and the length of every other
buffer reads as before. -/
def Obligations.CommandsChangeOnlyTheirDestination : Prop :=
  ∀ (i : Instr) (s t : State), exec i s = .next t →
    (t.params = s.params ∧ t.script = s.script ∧ t.replies = s.replies) ∧
    match i with
    | .clear => True
    | .count => t.root = s.root ∧ ∀ b, b ≠ .ft → t.len b = s.len b ∧ ∀ j, t.elem b j = s.elem b j
    | .build => ∀ b, b ≠ .node → t.len b = s.len b ∧ ∀ j, t.elem b j = s.elem b j
    | .table => t.root = s.root ∧ ∀ b, b ≠ .ct → t.len b = s.len b ∧ ∀ j, t.elem b j = s.elem b j
    | .encode => t.root = s.root ∧ ∀ b, b ≠ .bits → t.len b = s.len b ∧ ∀ j, t.elem b j = s.elem b j
    | .decode => t.root = s.root ∧ ∀ b, b ≠ .out → t.len b = s.len b ∧ ∀ j, t.elem b j = s.elem b j

/-- 60_exceptions.md R209, 40 R103, 41 R122, 42 R136, 43 R147, 44 R158: the same command run again at once
gives the same state again: a failure fails again with the same code, a success writes the same result. -/
def Obligations.RepeatedCommandGivesSameState : Prop :=
  ∀ (i : Instr) (s t : State), exec i s = .next t → exec i t = .next t

/-- 20_memory.md R61, 41_tree_builder.md R110, R121: what a command writes depends on the parameters and on
the buffers it reads alone: two states that agree on those get the same STATUS and destination. -/
def Obligations.CommandsReadOnlyTheirSources : Prop :=
  ∀ (i : Instr) (s s' t : State), s.params = s'.params →
    (∀ o ∈ sources i, s.operand o = s'.operand o) → exec i s = .next t →
    ∃ t', exec i s' = .next t' ∧ t'.status = t.status ∧
      ∀ o ∈ destinations i, t'.operand o = t.operand o

/-- 60_exceptions.md R205: "In the unbounded reading Capacity never occurs", and a finite machine "met no
Capacity status has computed exactly what the unbounded reading computes". -/
def Obligations.CapacityIsTheOnlyEffectOfBounds : Prop :=
  (∀ (i : Instr) (s t : State), s.params = .unbounded → exec i s = .next t → t.status ≠ .capacity) ∧
  (∀ (i : Instr) (s t : State), exec i s = .next t → t.status ≠ .capacity →
    exec i { s with params := .unbounded } = .next { t with params := .unbounded })

/-! ## Invariants -/

/-- 10_state.md R38, R39, R40: the invariant holds after reset, for all legal parameters, whatever the
host is about to do. -/
def Obligations.InvariantHoldsAtReset : Prop :=
  State.reset.Inv ∧
  ∀ (p : Params) (ts : List Transaction), p.wf = true → ((State.resetWith p).load ts).Inv

/-- 10_state.md R38, R39, 20_memory.md R62: every step keeps the invariant: the tree of R38, the table of
R39, the buffers within their capacities and field widths. -/
def Obligations.StepKeepsInvariant : Prop :=
  ∀ s t : State, s.Inv → step s = .next t → t.Inv

/-- 10_state.md R38, R39: at every command boundary of every run from reset, for all legal parameters and
whatever the host does, NODE and ROOT are a well-formed tree and CT is a well-formed table. -/
def Obligations.ReachableTreesAndTablesAreWellFormed : Prop :=
  ∀ (p : Params) (ts : List Transaction) (k : Nat) (t : State), p.wf = true →
    Sys2Proof.core.run k ((State.resetWith p).load ts) = .next t →
    TreeWf t.mem.node t.root ∧ TableWf t.mem.ct

/-- 45_system.md R170, R173: from a state of the invariant every transaction the hardware has is a step to a
next state; no command faults or is refused. -/
def Obligations.StepFromInvariantCompletes : Prop :=
  (∀ s : State, s.Inv → (∀ t rest, s.script = t :: rest → transactionExists s.params t = true) →
    ∃ u, step s = .next u) ∧
  (∀ (i : Instr) (s : State), s.Inv → ∃ u, exec i s = .next u)

/-- 00_scope.md R9, 10_state.md R26, R27: in a state of the invariant every length register's value fits
`LEN_W` bits and ROOT's index fits `IDX_W` bits. -/
def Obligations.RegistersFitTheirWidths : Prop :=
  ∀ s : State, s.Inv →
    (∀ (w : Nat) (b : Buffer), s.params.lenW = some w → s.len b < 2 ^ w) ∧
    (∀ w : Nat, s.params.idxW = some w → s.root.idx < 2 ^ w)

/-! ## Record layouts (30_encoding.md section 3) -/

/-- 30_encoding.md R87, R88, R89, R90, 10_state.md R27: where each field of a packed record stands. That the
least width which holds `CODE_MAX = 0` is 0 bits, so that the `len` field is then absent, is the model's
deduction (log 12). -/
def Obligations.RecordLayoutBits : Prop :=
  (∀ (sw fw : Nat) (e : FtEntry),
    (∀ i < fw, (packFtEntry sw fw e).getLsbD i = e.count.testBit i) ∧
    (∀ i < sw, (packFtEntry sw fw e).getLsbD (fw + i) = e.sym.testBit i)) ∧
  (∀ (sw fw iw a f : Nat), let v := packNode sw fw iw (.leaf a f); let P := max sw (2 * iw)
    v.getLsbD (fw + P) = false ∧ (∀ i < fw, v.getLsbD (P + i) = f.testBit i) ∧
    (∀ i < sw, v.getLsbD i = a.testBit i) ∧ ∀ i, sw ≤ i → i < P → v.getLsbD i = false) ∧
  (∀ (sw fw iw f l r : Nat), let v := packNode sw fw iw (.internal f l r); let P := max sw (2 * iw)
    v.getLsbD (fw + P) = true ∧ (∀ i < fw, v.getLsbD (P + i) = f.testBit i) ∧
    (∀ i < iw, v.getLsbD i = r.testBit i) ∧ (∀ i < iw, v.getLsbD (iw + i) = l.testBit i) ∧
    ∀ i, 2 * iw ≤ i → i < P → v.getLsbD i = false) ∧
  (∀ (sw cm : Nat) (e : CtEntry), e.code.length ≤ cm →
    let v := packCtEntry sw cm e; let lc := bitLength cm
    (∀ i d, e.code[i]? = some d → v.getLsbD i = d) ∧
    (∀ i, e.code.length ≤ i → i < cm → v.getLsbD i = false) ∧
    (∀ i < lc, v.getLsbD (cm + i) = e.code.length.testBit i) ∧
    (∀ i < sw, v.getLsbD (cm + lc + i) = e.sym.testBit i) ∧
    (cm < 2 ^ lc ∧ ∀ w, cm < 2 ^ w → lc ≤ w)) ∧
  (∀ (iw : Nat) (r : Root),
    (packRoot iw r).getLsbD iw = r.valid ∧ ∀ i < iw, (packRoot iw r).getLsbD i = r.idx.testBit i)

/-- 30_encoding.md R87 to R90: a record whose fields fit their widths is read back from its packed form. -/
def Obligations.PackedRecordsReadBack : Prop :=
  (∀ (sw fw : Nat) (e : FtEntry), e.sym < 2 ^ sw → e.count < 2 ^ fw →
    unpackFtEntry sw fw (packFtEntry sw fw e) = e) ∧
  (∀ (sw fw iw a f : Nat), a < 2 ^ sw → f < 2 ^ fw →
    unpackNode sw fw iw (packNode sw fw iw (.leaf a f)) = .leaf a f) ∧
  (∀ (sw fw iw f l r : Nat), f < 2 ^ fw → l < 2 ^ iw → r < 2 ^ iw →
    unpackNode sw fw iw (packNode sw fw iw (.internal f l r)) = .internal f l r) ∧
  (∀ (sw cm : Nat) (e : CtEntry), e.sym < 2 ^ sw → e.code.length ≤ cm →
    unpackCtEntry sw cm (packCtEntry sw cm e) = e) ∧
  (∀ (iw : Nat) (r : Root), r.idx < 2 ^ iw → unpackRoot iw (packRoot iw r) = r)
end

