-- ==== Sys2Proof/Laws/State.lean ====
section
/-! SUPPORT. One lemma per field per named update of the state, so that no proof unfolds a record update. -/

namespace Sys2Proof.Machine

/-! ## setStatus -/

@[simp] theorem State.setStatus_params (s : State) (st : Status) : (s.setStatus st).params = s.params := rfl

@[simp] theorem State.setStatus_status (s : State) (st : Status) : (s.setStatus st).status = st := rfl

@[simp] theorem State.setStatus_root (s : State) (st : Status) : (s.setStatus st).root = s.root := rfl

@[simp] theorem State.setStatus_mem (s : State) (st : Status) : (s.setStatus st).mem = s.mem := rfl

@[simp] theorem State.setStatus_script (s : State) (st : Status) : (s.setStatus st).script = s.script := rfl

@[simp] theorem State.setStatus_replies (s : State) (st : Status) : (s.setStatus st).replies = s.replies := rfl

/-! ## store -/

@[simp] theorem State.store_params (s : State) (c : Contents) : (s.store c).params = s.params := rfl

@[simp] theorem State.store_status (s : State) (c : Contents) : (s.store c).status = s.status := rfl

@[simp] theorem State.store_root (s : State) (c : Contents) : (s.store c).root = s.root := rfl

@[simp] theorem State.store_mem (s : State) (c : Contents) : (s.store c).mem = s.mem.store c := rfl

@[simp] theorem State.store_script (s : State) (c : Contents) : (s.store c).script = s.script := rfl

@[simp] theorem State.store_replies (s : State) (c : Contents) : (s.store c).replies = s.replies := rfl

/-! ## storeTree -/

@[simp] theorem State.storeTree_params (s : State) (N : List NodeRec) (r : Root) : (s.storeTree N r).params = s.params := rfl

@[simp] theorem State.storeTree_status (s : State) (N : List NodeRec) (r : Root) : (s.storeTree N r).status = s.status := rfl

@[simp] theorem State.storeTree_root (s : State) (N : List NodeRec) (r : Root) : (s.storeTree N r).root = r := rfl

@[simp] theorem State.storeTree_mem (s : State) (N : List NodeRec) (r : Root) : (s.storeTree N r).mem = { s.mem with node := N } := rfl

@[simp] theorem State.storeTree_script (s : State) (N : List NodeRec) (r : Root) : (s.storeTree N r).script = s.script := rfl

@[simp] theorem State.storeTree_replies (s : State) (N : List NodeRec) (r : Root) : (s.storeTree N r).replies = s.replies := rfl

/-! ## reply -/

@[simp] theorem State.reply_params (s : State) (r : Reply) : (s.reply r).params = s.params := rfl

@[simp] theorem State.reply_status (s : State) (r : Reply) : (s.reply r).status = s.status := rfl

@[simp] theorem State.reply_root (s : State) (r : Reply) : (s.reply r).root = s.root := rfl

@[simp] theorem State.reply_mem (s : State) (r : Reply) : (s.reply r).mem = s.mem := rfl

@[simp] theorem State.reply_script (s : State) (r : Reply) : (s.reply r).script = s.script := rfl

@[simp] theorem State.reply_replies (s : State) (r : Reply) : (s.reply r).replies = s.replies ++ [r] := rfl

/-! ## load -/

@[simp] theorem State.load_params (s : State) (ts : List Transaction) : (s.load ts).params = s.params := rfl

@[simp] theorem State.load_status (s : State) (ts : List Transaction) : (s.load ts).status = s.status := rfl

@[simp] theorem State.load_root (s : State) (ts : List Transaction) : (s.load ts).root = s.root := rfl

@[simp] theorem State.load_mem (s : State) (ts : List Transaction) : (s.load ts).mem = s.mem := rfl

@[simp] theorem State.load_script (s : State) (ts : List Transaction) : (s.load ts).script = ts ++ s.script := rfl

@[simp] theorem State.load_replies (s : State) (ts : List Transaction) : (s.load ts).replies = s.replies := rfl

/-! ## The buffers of a store -/

@[simp] theorem Memory.store_sym (m : Memory) (L : List Symbol) :
    m.store (.sym L) = { m with sym := L } := rfl

@[simp] theorem Memory.store_ft (m : Memory) (L : List FtEntry) :
    m.store (.ft L) = { m with ft := L } := rfl

@[simp] theorem Memory.store_node (m : Memory) (L : List NodeRec) :
    m.store (.node L) = { m with node := L } := rfl

@[simp] theorem Memory.store_ct (m : Memory) (L : List CtEntry) :
    m.store (.ct L) = { m with ct := L } := rfl

@[simp] theorem Memory.store_bits (m : Memory) (L : List Digit) :
    m.store (.bits L) = { m with bits := L } := rfl

@[simp] theorem Memory.store_out (m : Memory) (L : List Symbol) :
    m.store (.out L) = { m with out := L } := rfl

@[simp] theorem Memory.contents_sym (m : Memory) : m.contents .sym = .sym m.sym := rfl

@[simp] theorem Memory.contents_ft (m : Memory) : m.contents .ft = .ft m.ft := rfl

@[simp] theorem Memory.contents_node (m : Memory) : m.contents .node = .node m.node := rfl

@[simp] theorem Memory.contents_ct (m : Memory) : m.contents .ct = .ct m.ct := rfl

@[simp] theorem Memory.contents_bits (m : Memory) : m.contents .bits = .bits m.bits := rfl

@[simp] theorem Memory.contents_out (m : Memory) : m.contents .out = .out m.out := rfl

@[simp] theorem State.len_sym (s : State) : s.len .sym = s.mem.sym.length := rfl

@[simp] theorem State.len_ft (s : State) : s.len .ft = s.mem.ft.length := rfl

@[simp] theorem State.len_node (s : State) : s.len .node = s.mem.node.length := rfl

@[simp] theorem State.len_ct (s : State) : s.len .ct = s.mem.ct.length := rfl

@[simp] theorem State.len_bits (s : State) : s.len .bits = s.mem.bits.length := rfl

@[simp] theorem State.len_out (s : State) : s.len .out = s.mem.out.length := rfl

/-! ## Emptied destinations (60_exceptions.md R206) -/

@[simp] theorem State.emptyDestination_sym (s : State) :
    s.emptyDestination .sym = s.store (.sym []) := rfl

@[simp] theorem State.emptyDestination_ft (s : State) :
    s.emptyDestination .ft = s.store (.ft []) := rfl

@[simp] theorem State.emptyDestination_node (s : State) :
    s.emptyDestination .node = s.storeTree [] .null := rfl

@[simp] theorem State.emptyDestination_ct (s : State) :
    s.emptyDestination .ct = s.store (.ct []) := rfl

@[simp] theorem State.emptyDestination_bits (s : State) :
    s.emptyDestination .bits = s.store (.bits []) := rfl

@[simp] theorem State.emptyDestination_out (s : State) :
    s.emptyDestination .out = s.store (.out []) := rfl

end Sys2Proof.Machine
end

