-- ==== Sys2Proof/Laws/Ops.lean ====
section
/-! SUPPORT. One lemma per shared operation that says everything it can do. -/

namespace Sys2Proof.Machine

/-! ## Bounds -/

@[simp] theorem fits_none (n : Nat) : fits none n = true := rfl

theorem fits_some {m n : Nat} : fits (some m) n = true ↔ n ≤ m := by simp [fits]

/-- A smaller number fits where a larger one does. -/
theorem fits_mono {c : Option Nat} {m n : Nat} (h : m ≤ n) (hn : fits c n = true) :
    fits c m = true := by
  cases c with
  | none => rfl
  | some c => exact fits_some.2 (h.trans (fits_some.1 hn))

theorem fits_zero (c : Option Nat) : fits c 0 = true := by cases c <;> simp [fits]

theorem freqFits_mono {p : Params} {m n : Nat} (h : m ≤ n) (hn : freqFits p n = true) :
    freqFits p m = true := fits_mono h hn

/-! ## Memory primitives (20_memory.md R62) -/

/-- A read inside the content returns exactly the elements asked for. -/
theorem memRead_eq_some {α : Type} {L v : List α} {i n : Nat} :
    memRead L i n = some v ↔ i + n ≤ L.length ∧ v = (L.drop i).take n := by
  unfold memRead
  split <;> simp_all [eq_comm]

/-- MemWrite is defined exactly within the capacity. -/
theorem memWrite_defined {α : Type} (cap : Option Nat) (b : Storage α) (i : Nat) (v : List α) :
    (∃ b', memWrite cap b i v = some b') ↔ fits cap (i + v.length) = true := by
  unfold memWrite
  split <;> simp_all

/-- Everything MemWrite does: cells `i .. i+len(v)-1` become those of `v`, every other cell and the length
register stay. -/
theorem memWrite_spec {α : Type} {cap : Option Nat} {b b' : Storage α} {i : Nat} {v : List α}
    (h : memWrite cap b i v = some b') :
    b'.len = b.len ∧
      ∀ j, b'.cell j = if i ≤ j ∧ j < i + v.length then v[j - i]? else b.cell j := by
  unfold memWrite at h
  split at h
  · obtain rfl := Option.some.inj h
    refine ⟨rfl, fun j => ?_⟩
    rw [Storage.cell, List.getD_eq_getElem?_getD, List.getElem?_map]
    by_cases hj : j < max b.cells.length (i + v.length)
    · rw [List.getElem?_range hj]; rfl
    · have hc : b.cell j = none := by
        rw [Storage.cell, List.getD_eq_default _ _ (by omega)]
      rw [List.getElem?_eq_none (by simp; omega), if_neg (by omega), hc]; rfl
  · cases h

/-- The content of the storage is `L` (10_state.md R26). -/
abbrev Storage.Holds {α : Type} (b : Storage α) (L : List α) : Prop :=
  b.len = L.length ∧ ∀ j < L.length, b.cell j = L[j]?

theorem Storage.ofContent_holds {α : Type} (L : List α) : (Storage.ofContent L).Holds L := by
  refine ⟨rfl, fun j hj => ?_⟩
  simp [Storage.ofContent, Storage.cell, hj]

/-- A storage has one content, so State may hold the content alone (log 3). -/
theorem Storage.Holds.unique {α : Type} {b : Storage α} {L L' : List α} (h : b.Holds L)
    (h' : b.Holds L') : L = L' := by
  have hl : L.length = L'.length := h.1.symm.trans h'.1
  refine List.ext_getElem? fun j => ?_
  by_cases hj : j < L.length
  · rw [← h.2 j hj, h'.2 j (hl ▸ hj)]
  · rw [List.getElem?_eq_none (by omega), List.getElem?_eq_none (by omega)]

/-- After `B <- L` the content is exactly `L`: "no element of an earlier content survives" (20_memory.md
R62). -/
theorem writeWhole_holds {α : Type} {cap : Option Nat} {b b' : Storage α} {L : List α}
    (h : writeWhole cap b L = some b') : b'.Holds L := by
  obtain ⟨c, hc, rfl⟩ := Option.map_eq_some_iff.1 h
  refine ⟨rfl, fun j hj => ?_⟩
  have := (memWrite_spec hc).2 j
  rw [if_pos (by omega)] at this
  exact this

/-- `B <- L` is defined exactly when `L` fits the capacity. -/
theorem writeWhole_defined {α : Type} (cap : Option Nat) (b : Storage α) (L : List α) :
    (∃ b', writeWhole cap b L = some b') ↔ fits cap L.length = true := by
  rw [← Nat.zero_add L.length, ← memWrite_defined cap b 0 L]
  simp [writeWhole, Option.map_eq_some_iff]

/-- A write below the length changes the content at those indices and nowhere else; one at or above the
length leaves the content. -/
theorem memWrite_content {α : Type} {cap : Option Nat} {b b' : Storage α} {i : Nat} {v L L' : List α}
    (h : memWrite cap b i v = some b') (hb : b.Holds L) (hb' : b'.Holds L') :
    L'.length = L.length ∧
      ∀ j < L.length, L'[j]? = if i ≤ j ∧ j < i + v.length then v[j - i]? else L[j]? := by
  obtain ⟨h1, h2⟩ := memWrite_spec h
  have hl : L'.length = L.length := by rw [← hb'.1, h1, hb.1]
  refine ⟨hl, fun j hj => ?_⟩
  rw [← hb'.2 j (hl ▸ hj), h2, hb.2 j hj]

/-- Read after write gives the value written. -/
theorem memRead_of_memWrite {α : Type} {cap : Option Nat} {b b' : Storage α} {i : Nat} {v L' : List α}
    (h : memWrite cap b i v = some b') (hb' : b'.Holds L') (hi : i + v.length ≤ b.len) :
    memRead L' i v.length = some v := by
  obtain ⟨h1, h2⟩ := memWrite_spec h
  have hl : i + v.length ≤ L'.length := by rw [← hb'.1, h1]; exact hi
  refine memRead_eq_some.2 ⟨hl, List.ext_getElem? fun j => ?_⟩
  by_cases hj : j < v.length
  · rw [List.getElem?_take_of_lt hj, List.getElem?_drop, ← hb'.2 _ (by omega), h2,
      if_pos (by omega), Nat.add_sub_cancel_left]
  · rw [List.getElem?_eq_none (by omega), List.getElem?_eq_none (by simp; omega)]

/-! ## How a command ends -/

/-- `raise` writes STATUS, empties the destination, and changes nothing else (60_exceptions.md R206). -/
theorem raise_frame (e : Status) (d : Buffer) (s : State) :
    (raise e d s).status = e ∧ (raise e d s).params = s.params ∧ (raise e d s).script = s.script ∧
      (raise e d s).replies = s.replies ∧ (d ≠ .node → (raise e d s).root = s.root) ∧
      (raise e d s).mem = s.mem.store (emptyContents d) := by
  cases d <;> simp [raise, emptyContents]

/-- Everything `complete` can do. -/
theorem complete_cases (st : Status) (d : Buffer) (write : State → State) (s : State) :
    (st = .ok ∧ complete st d write s = (write s).setStatus .ok) ∨
      (st ≠ .ok ∧ complete st d write s = raise st d s) := by
  unfold complete
  by_cases h : st = .ok <;> simp [h]

@[simp] theorem complete_ok (d : Buffer) (write : State → State) (s : State) :
    complete .ok d write s = (write s).setStatus .ok := rfl

theorem complete_error {st : Status} (h : st ≠ .ok) (d : Buffer) (write : State → State) (s : State) :
    complete st d write s = raise st d s := if_neg h

theorem complete_status {st : Status} {d : Buffer} {write : State → State} {s : State} :
    (complete st d write s).status = st := by
  obtain ⟨rfl, h⟩ | ⟨h0, h⟩ := complete_cases st d write s
  · rw [h]; rfl
  · rw [h]; exact (raise_frame st d s).1

/-! ## How a transaction reaches the machine -/

theorem fetch_nil {s : State} (h : s.script = []) : fetch s = none := by simp [fetch, h]

theorem fetch_cons {s : State} {t : Transaction} {rest : List Transaction} (h : s.script = t :: rest) :
    fetch s = some (t, { s with script := rest }) := by simp [fetch, h]

theorem fetch_load (s : State) (t : Transaction) : fetch (s.load [t]) = some (t, s) := rfl

/-- Everything a step can do when it answers a next state: nothing is pending, a command runs, an illegal
word sets STATUS, or the host puts, gets or reads. -/
theorem step_cases {s u : State} (h : step s = .next u) :
    (s.script = [] ∧ u = s) ∨
    ∃ t rest, s.script = t :: rest ∧
      ((∃ w i, t = .cmd w ∧ decode w = .ok i ∧ exec i { s with script := rest } = .next u) ∨
        (∃ w e, t = .cmd w ∧ decode w = .error e ∧ u = illegalCommand { s with script := rest }) ∨
        (∃ c, t = .put c ∧ hostPut c { s with script := rest } = .next u) ∨
        (∃ b, t = .get b ∧
          u = State.reply { s with script := rest } (.contents (s.mem.contents b))) ∨
        (∃ r, t = .readReg r ∧ u = State.reply { s with script := rest } (.reg (s.regVal r)))) := by
  cases hs : s.script with
  | nil =>
    rw [step, fetch_nil hs] at h
    exact .inl ⟨rfl, by simpa using h.symm⟩
  | cons t rest =>
    refine .inr ⟨t, rest, rfl, ?_⟩
    rw [step, fetch_cons hs] at h
    cases t with
    | cmd w =>
      cases hd : decode w with
      | ok i => simp only [hd] at h; exact .inl ⟨w, i, rfl, hd, h⟩
      | error e =>
        simp only [hd, Host.Outcome.next.injEq] at h
        exact .inr (.inl ⟨w, e, rfl, hd, h.symm⟩)
    | put c => exact .inr (.inr (.inl ⟨c, rfl, h⟩))
    | get b =>
      refine .inr (.inr (.inr (.inl ⟨b, rfl, ?_⟩)))
      simpa [hostGet] using h.symm
    | readReg r =>
      refine .inr (.inr (.inr (.inr ⟨r, rfl, ?_⟩)))
      have h' := (Host.Outcome.next.inj h).symm
      rw [h']
      cases r <;> rfl
    | readCmd => simp at h
    | writeReg r v => simp at h

/-- Everything HostPut can do: the one buffer is replaced by content of its type that fits, or no step. -/
theorem hostPut_cases (c : Contents) (s : State) :
    (hostWritable (contentsBuffer c) = true ∧ elementsFit s.params c = true ∧
      fits (bufferCap s.params (contentsBuffer c)) (contentsLength c) = true ∧
      hostPut c s = .next (s.store c)) ∨ ∃ r, hostPut c s = .refused r := by
  unfold hostPut putRefusal
  by_cases h1 : hostWritable (contentsBuffer c) = true <;>
    by_cases h2 : elementsFit s.params c = true <;>
    by_cases h3 : fits (bufferCap s.params (contentsBuffer c)) (contentsLength c) = true <;>
    simp [h1, h2, h3]

end Sys2Proof.Machine
end

