-- ==== Sys2Proof/Laws/Queue.lean ====
section
/-! SUPPORT. The priority queue as the spec describes it (10_state.md R36, 41_tree_builder.md R113). -/

namespace Sys2Proof.Machine

theorem keyLess_iff {a b : Key} :
    keyLess a b = true ↔ a.freq < b.freq ∨ (a.freq = b.freq ∧ a.idx < b.idx) := by simp [keyLess]

theorem keyLess_trans {a b c : Key} (h : keyLess a b = true) (h' : keyLess b c = true) :
    keyLess a c = true := by
  rw [keyLess_iff] at *
  omega

/-- Of two members with different indices one is lower: the key order is total. -/
theorem keyLess_of_not {a b : Key} (hi : a.idx ≠ b.idx) (h : ¬ keyLess a b = true) :
    keyLess b a = true := by
  rw [keyLess_iff] at *
  omega

/-- The queue is in ascending key order. -/
abbrev QueueSorted (q : List Key) : Prop := q.Pairwise fun a b => keyLess a b = true

/-- `PQ.insert` adds exactly the one member. -/
theorem pqInsert_perm (k : Key) (q : List Key) : (pqInsert k q).Perm (k :: q) := by
  induction q with
  | nil => rfl
  | cons x q ih =>
    unfold pqInsert
    split
    · rfl
    · exact (ih.cons x).trans (.swap k x q)

theorem pqInsert_length (k : Key) (q : List Key) : (pqInsert k q).length = q.length + 1 := by
  simpa using (pqInsert_perm k q).length_eq

/-- `PQ.insert` of a new index keeps the order. -/
theorem pqInsert_sorted {k : Key} {q : List Key} (hq : QueueSorted q) (hk : k.idx ∉ q.map Key.idx) :
    QueueSorted (pqInsert k q) := by
  induction q with
  | nil => simp [pqInsert]
  | cons x q ih =>
    simp only [List.map_cons, List.mem_cons, not_or] at hk
    obtain ⟨hx, hq'⟩ := List.pairwise_cons.1 hq
    unfold pqInsert
    split
    · rename_i h
      refine List.pairwise_cons.2 ⟨fun y hy => ?_, hq⟩
      obtain rfl | hy := List.mem_cons.1 hy
      · exact h
      · exact keyLess_trans h (hx y hy)
    · rename_i h
      refine List.pairwise_cons.2 ⟨fun y hy => ?_, ih hq' hk.2⟩
      obtain rfl | hy := List.mem_cons.1 ((pqInsert_perm k q).mem_iff.1 hy)
      · exact keyLess_of_not hk.1 h
      · exact hx y hy

/-- `PQ.extract_min` removes exactly the member it returns, and that member is lower than all others. -/
theorem pqExtractMin_spec {q q' : List Key} {k : Key} (hq : QueueSorted q)
    (h : pqExtractMin q = some (k, q')) :
    q = k :: q' ∧ QueueSorted q' ∧ ∀ x ∈ q', keyLess k x = true := by
  cases q with
  | nil => simp [pqExtractMin] at h
  | cons x q =>
    simp only [pqExtractMin, Option.some.injEq, Prod.mk.injEq] at h
    obtain ⟨rfl, rfl⟩ := h
    obtain ⟨h1, h2⟩ := List.pairwise_cons.1 hq
    exact ⟨rfl, h2, h1⟩

end Sys2Proof.Machine
end

