-- ==== Sys2Proof/Laws/Tree.lean ====
section
/-! SUPPORT. Nodes of a growing NODE content: what an appended record changes and what it leaves. -/

namespace Sys2Proof.Machine

theorem freqAt_of_getElem? {N : List NodeRec} {i : Nat} {n : NodeRec} (h : N[i]? = some n) :
    freqAt N i = nodeFreq n := by simp [freqAt, h]

theorem freqAt_append {N N' : List NodeRec} {i : Nat} (h : i < N.length) :
    freqAt (N ++ N') i = freqAt N i := by simp [freqAt, List.getElem?_append_left h]

theorem childIndices_append (N N' : List NodeRec) :
    childIndices (N ++ N') = childIndices N ++ childIndices N' := by
  induction N with
  | nil => rfl
  | cons n N ih => cases n <;> simp [childIndices, ih]

theorem leafSymbols_append (N N' : List NodeRec) :
    leafSymbols (N ++ N') = leafSymbols N ++ leafSymbols N' := by
  induction N with
  | nil => rfl
  | cons n N ih => cases n <;> simp [leafSymbols, ih]

/-- An index is a child exactly when some internal node names it. -/
theorem mem_childIndices {N : List NodeRec} {i : Nat} :
    i ∈ childIndices N ↔ ∃ (p f l r : Nat), N[p]? = some (.internal f l r) ∧ (i = l ∨ i = r) := by
  induction N with
  | nil => simp [childIndices]
  | cons n N ih =>
    constructor
    · intro h
      cases n with
      | leaf s f =>
        obtain ⟨p, f, l, r, h, h'⟩ := ih.1 h
        exact ⟨p + 1, f, l, r, by simpa using h, h'⟩
      | internal f l r =>
        simp only [childIndices, List.mem_cons] at h
        rcases h with h | h | h
        · exact ⟨0, f, l, r, rfl, .inl h⟩
        · exact ⟨0, f, l, r, rfl, .inr h⟩
        · obtain ⟨p, f, l, r, h, h'⟩ := ih.1 h
          exact ⟨p + 1, f, l, r, by simpa using h, h'⟩
    · rintro ⟨p, f, l, r, h, h'⟩
      cases p with
      | zero =>
        simp only [List.getElem?_cons_zero, Option.some.injEq] at h
        subst h
        simp only [childIndices, List.mem_cons]
        tauto
      | succ p =>
        have := ih.2 ⟨p, f, l, r, by simpa using h, h'⟩
        cases n <;> simp [childIndices, this]

/-- A symbol is a leaf's exactly when some leaf holds it. -/
theorem mem_leafSymbols {N : List NodeRec} {a : Symbol} :
    a ∈ leafSymbols N ↔ ∃ (p f : Nat), N[p]? = some (.leaf a f) := by
  induction N with
  | nil => simp [leafSymbols]
  | cons n N ih =>
    constructor
    · intro h
      cases n with
      | leaf s f =>
        simp only [leafSymbols, List.mem_cons] at h
        rcases h with rfl | h
        · exact ⟨0, f, rfl⟩
        · obtain ⟨p, f, h⟩ := ih.1 h
          exact ⟨p + 1, f, by simpa using h⟩
      | internal f l r =>
        obtain ⟨p, f, h⟩ := ih.1 h
        exact ⟨p + 1, f, by simpa using h⟩
    · rintro ⟨p, f, h⟩
      cases p with
      | zero =>
        simp only [List.getElem?_cons_zero, Option.some.injEq] at h
        subst h
        simp [leafSymbols]
      | succ p =>
        have := ih.2 ⟨p, f, by simpa using h⟩
        cases n <;> simp [leafSymbols, this]

theorem childIndices_leaves (F : List FtEntry) :
    childIndices (F.map fun e => .leaf e.sym e.count) = [] := by
  induction F with
  | nil => rfl
  | cons e F ih => simpa [childIndices] using ih

theorem leafSymbols_leaves (F : List FtEntry) :
    leafSymbols (F.map fun e => .leaf e.sym e.count) = F.map FtEntry.sym := by
  induction F with
  | nil => rfl
  | cons e F ih => simpa [leafSymbols] using ih

end Sys2Proof.Machine
end

