-- ==== Sys2Proof/Laws/Build.lean ====
section
/-! SUPPORT. What BUILD's loops keep true, and the tree they leave (41_tree_builder.md R112 to R119). -/

namespace Sys2Proof.Machine

/-- The leaves of a table, in entry order (41_tree_builder.md R112). -/
def leavesOf (F : List FtEntry) : List NodeRec := F.map fun e => .leaf e.sym e.count

/-- The queue and the nodes written so far belong together: every member has its node's frequency, the
members are in key order, and every node is either a child or a member, and only once. -/
structure QueueOk (N : List NodeRec) (q : List Key) : Prop where
  keys : ∀ k ∈ q, k.freq = freqAt N k.idx
  sorted : QueueSorted q
  perm : (childIndices N ++ q.map Key.idx).Perm (List.range N.length)

namespace QueueOk

variable {N : List NodeRec} {q : List Key}

theorem idx_lt (h : QueueOk N q) {k : Key} (hk : k ∈ q) : k.idx < N.length := by
  have : k.idx ∈ childIndices N ++ q.map Key.idx :=
    List.mem_append_right _ (List.mem_map_of_mem hk)
  simpa using h.perm.mem_iff.1 this

theorem nodup (h : QueueOk N q) : (childIndices N ++ q.map Key.idx).Nodup :=
  h.perm.nodup_iff.2 List.nodup_range

/-- The members are exactly the nodes that are no child. -/
theorem mem_iff (h : QueueOk N q) {x : Nat} :
    x ∈ q.map Key.idx ↔ x < N.length ∧ x ∉ childIndices N := by
  have hm : x ∈ childIndices N ∨ x ∈ q.map Key.idx ↔ x < N.length := by
    rw [← List.mem_append, h.perm.mem_iff, List.mem_range]
  have hd := (List.nodup_append.1 h.nodup).2.2
  constructor
  · intro hx
    exact ⟨hm.1 (.inr hx), fun hc => hd x hc x hx rfl⟩
  · rintro ⟨h1, h2⟩
    exact (hm.2 h1).resolve_left h2

theorem length_not_mem (h : QueueOk N q) : N.length ∉ q.map Key.idx := fun hx =>
  Nat.lt_irrefl _ (h.mem_iff.1 hx).1

end QueueOk

/-- A new node inserted with its own key, `cs` being the members it took as children. -/
theorem QueueOk.insert {N : List NodeRec} {q : List Key} {n : NodeRec} {cs : List Key}
    (h : QueueOk N (cs ++ q)) (hc : childIndices [n] = cs.map Key.idx) :
    QueueOk (N ++ [n]) (pqInsert ⟨nodeFreq n, N.length⟩ q) := by
  have hnot : N.length ∉ q.map Key.idx := fun hx => h.length_not_mem (by simp at hx ⊢; tauto)
  refine ⟨fun k hk => ?_, pqInsert_sorted (List.pairwise_append.1 h.sorted).2.1 hnot, ?_⟩
  · obtain rfl | hk := List.mem_cons.1 ((pqInsert_perm _ q).mem_iff.1 hk)
    · simp [freqAt]
    · have hk' : k ∈ cs ++ q := List.mem_append_right _ hk
      rw [h.keys k hk', freqAt_append (h.idx_lt hk')]
  · rw [childIndices_append, hc, List.length_append, List.length_singleton, List.range_succ]
    have h1 : ((pqInsert ⟨nodeFreq n, N.length⟩ q).map Key.idx).Perm (N.length :: q.map Key.idx) :=
      (pqInsert_perm _ q).map Key.idx
    calc
      (childIndices N ++ cs.map Key.idx ++
          (pqInsert ⟨nodeFreq n, N.length⟩ q).map Key.idx).Perm
          (childIndices N ++ cs.map Key.idx ++ N.length :: q.map Key.idx) := h1.append_left _
      _ |>.Perm (N.length :: (childIndices N ++ cs.map Key.idx ++ q.map Key.idx)) :=
        List.perm_middle
      _ |>.Perm (N.length :: List.range N.length) := by
        refine List.Perm.cons _ ?_
        simpa using h.perm
      _ |>.Perm (List.range N.length ++ [N.length]) := (List.perm_append_singleton _ _).symm

/-- Initialisation (41_tree_builder.md R112). -/
theorem loadLeaves_spec (F : List FtEntry) {N : List NodeRec} {q : List Key} (h : QueueOk N q) :
    (loadLeaves F N q).1 = N ++ leavesOf F ∧
      QueueOk (loadLeaves F N q).1 (loadLeaves F N q).2 ∧
      (loadLeaves F N q).2.length = q.length + F.length ∧
      ((loadLeaves F N q).2.map Key.freq).sum = (q.map Key.freq).sum + sumCounts F := by
  induction F generalizing N q with
  | nil => simpa [loadLeaves, leavesOf, sumCounts] using h
  | cons e F ih =>
    have h' : QueueOk (N ++ [.leaf e.sym e.count]) (pqInsert ⟨e.count, N.length⟩ q) :=
      QueueOk.insert (n := .leaf e.sym e.count) (cs := []) h rfl
    obtain ⟨h1, h2, h3, h4⟩ := ih h'
    refine ⟨by simpa [loadLeaves, leavesOf] using h1, h2, ?_, ?_⟩
    · rw [show loadLeaves (e :: F) N q = loadLeaves F _ _ from rfl, h3, pqInsert_length]
      simp; omega
    · have := ((pqInsert_perm ⟨e.count, N.length⟩ q).map Key.freq).sum_eq
      rw [show loadLeaves (e :: F) N q = loadLeaves F _ _ from rfl, h4, this]
      simp [sumCounts]; omega

/-- Node `p` is a merged node made as 41_tree_builder.md R113 and R114 say. -/
abbrev MergedOk (N : List NodeRec) (p : Nat) : Prop :=
  ∃ l r, N[p]? = some (.internal (freqAt N l + freqAt N r) l r) ∧
    Waiting N p l ∧ Waiting N p r ∧ NodeLower N l r ∧
    ∀ x, Waiting N p x → x ≠ l → x ≠ r → NodeLower N r x

theorem waiting_append {N N' : List NodeRec} {p x : Nat} (hp : p ≤ N.length) :
    Waiting (N ++ N') p x ↔ Waiting N p x := by
  simp [Waiting, List.take_append_of_le_length hp]

theorem nodeLower_append {N N' : List NodeRec} {a b : Nat} (ha : a < N.length) (hb : b < N.length) :
    NodeLower (N ++ N') a b ↔ NodeLower N a b := by
  simp [NodeLower, freqAt_append ha, freqAt_append hb]

/-- A merged node stays so when NODE grows. -/
theorem MergedOk.append {N N' : List NodeRec} {p : Nat} (hp : p < N.length) (h : MergedOk N p) :
    MergedOk (N ++ N') p := by
  obtain ⟨l, r, h1, hl, hr, h2, h3⟩ := h
  have hlt {x : Nat} (hx : Waiting N p x) : x < N.length := hx.1.trans hp
  refine ⟨l, r, ?_, (waiting_append hp.le).2 hl, (waiting_append hp.le).2 hr,
    (nodeLower_append (hlt hl) (hlt hr)).2 h2, fun x hx hxl hxr => ?_⟩
  · rw [List.getElem?_append_left hp, h1, freqAt_append (hlt hl), freqAt_append (hlt hr)]
  · have hx := (waiting_append hp.le).1 hx
    exact (nodeLower_append (hlt hr) (hlt hx)).2 (h3 x hx hxl hxr)

/-- One merge (41_tree_builder.md R114): with two members or more it is made of the two lowest, and the
queue has one member less and the same total frequency. -/
theorem mergeOnce_spec {N : List NodeRec} {q : List Key} (h : QueueOk N q) (hq : 2 ≤ q.length) :
    ∃ n q', mergeOnce N q = some (N ++ [n], q') ∧ QueueOk (N ++ [n]) q' ∧
      q'.length + 1 = q.length ∧ (q'.map Key.freq).sum = (q.map Key.freq).sum ∧
      MergedOk (N ++ [n]) N.length := by
  match q, hq with
  | a :: b :: q, _ =>
    have ha := h.keys a (by simp)
    have hb := h.keys b (by simp)
    have hla := h.idx_lt (k := a) (by simp)
    have hlb := h.idx_lt (k := b) (by simp)
    obtain ⟨hs1, hs2⟩ := List.pairwise_cons.1 h.sorted
    obtain ⟨hs3, -⟩ := List.pairwise_cons.1 hs2
    have lower {k k' : Key} (hk : k ∈ a :: b :: q) (hk' : k' ∈ a :: b :: q)
        (hl : keyLess k k' = true) : NodeLower N k.idx k'.idx := by
      rw [keyLess_iff, h.keys k hk, h.keys k' hk'] at hl
      exact hl
    have waits {x : Nat} : Waiting N N.length x ↔ x ∈ (a :: b :: q).map Key.idx := by
      rw [h.mem_iff, Waiting, List.take_length]
    refine ⟨.internal (a.freq + b.freq) a.idx b.idx, _, rfl,
      QueueOk.insert (n := .internal (a.freq + b.freq) a.idx b.idx) (cs := [a, b]) h rfl,
      by simp [pqInsert_length], ?_, ?_⟩
    · have := ((pqInsert_perm ⟨a.freq + b.freq, N.length⟩ q).map Key.freq).sum_eq
      rw [this]
      simp; omega
    · refine ⟨a.idx, b.idx, ?_, (waiting_append le_rfl).2 (waits.2 (by simp)),
        (waiting_append le_rfl).2 (waits.2 (by simp)),
        (nodeLower_append hla hlb).2 (lower (by simp) (by simp) (hs1 b (by simp))),
        fun x hx hxa hxb => ?_⟩
      · rw [freqAt_append hla, freqAt_append hlb, ← ha, ← hb]
        simp
      · have hx' := waits.1 ((waiting_append le_rfl).1 hx)
        simp only [List.map_cons, List.mem_cons, hxa, hxb, false_or] at hx'
        obtain ⟨k, hk, rfl⟩ := List.mem_map.1 hx'
        exact (nodeLower_append hlb (h.idx_lt (by simp [hk]))).2
          (lower (by simp) (by simp [hk]) (hs3 k hk))

/-- The `while` loop (41_tree_builder.md R115): with one pass less than the queue has members, one member
is left. -/
theorem mergeLoop_spec (n : Nat) {N : List NodeRec} {q : List Key} (h : QueueOk N q)
    (hq : q.length = n + 1) {k : Nat} (hN : ∀ p, k ≤ p → p < N.length → MergedOk N p) :
    ∃ M r, mergeLoop n N q = (N ++ M, [r]) ∧ M.length = n ∧ QueueOk (N ++ M) [r] ∧
      r.freq = (q.map Key.freq).sum ∧ ∀ p, k ≤ p → p < (N ++ M).length → MergedOk (N ++ M) p := by
  induction n generalizing N q with
  | zero =>
    match q, hq with
    | [r], _ => exact ⟨[], r, by simp [mergeLoop], rfl, by simpa using h, by simp, by simpa using hN⟩
  | succ n ih =>
    obtain ⟨x, q', h1, h2, h3, h4, h5⟩ := mergeOnce_spec h (by omega)
    have hN' : ∀ p, k ≤ p → p < (N ++ [x]).length → MergedOk (N ++ [x]) p := by
      intro p hkp hp
      rcases Nat.lt_or_ge p N.length with hlt | hge
      · exact (hN p hkp hlt).append hlt
      · obtain rfl : p = N.length := by simp at hp; omega
        exact h5
    obtain ⟨M, r, e1, e2, e3, e4, e5⟩ := ih h2 (by omega) hN'
    refine ⟨x :: M, r, ?_, by simp [e2], by simpa using e3, by rw [e4, h4], by simpa using e5⟩
    simp [mergeLoop, h1, e1]

/-- The tree BUILD makes of a non-empty table. -/
structure BuiltTree (F : List FtEntry) (N : List NodeRec) (root : Root) : Prop where
  length : N.length = 2 * F.length - 1
  leaves : N.take F.length = leavesOf F
  merged : ∀ p, F.length ≤ p → p < N.length → MergedOk N p
  root_eq : root = ⟨true, 2 * F.length - 2⟩
  children : (childIndices N ++ [root.idx]).Perm (List.range N.length)
  root_freq : freqAt N root.idx = sumCounts F

/-- Children of merged nodes are older nodes. -/
theorem MergedOk.lt {N : List NodeRec} {p : Nat} (h : MergedOk N p) {f l r : Nat}
    (hp : N[p]? = some (.internal f l r)) : l < p ∧ r < p ∧ l ≠ r ∧ f = freqAt N l + freqAt N r := by
  obtain ⟨l', r', h1, hl, hr, h2, -⟩ := h
  simp only [hp, Option.some.injEq, NodeRec.internal.injEq] at h1
  obtain ⟨rfl, rfl, rfl⟩ := h1
  refine ⟨hl.1, hr.1, ?_, rfl⟩
  rintro rfl
  rcases h2 with h2 | h2 <;> omega

/-- BUILD on a non-empty table (41_tree_builder.md R115). -/
theorem buildTree_spec {F : List FtEntry} (hF : F ≠ []) :
    BuiltTree F (buildTree F).1 (buildTree F).2 := by
  have hlen : 0 < F.length := List.length_pos_of_ne_nil hF
  have h0 : QueueOk [] [] := ⟨by simp, by simp, by simp [childIndices]⟩
  obtain ⟨l1, l2, l3, l4⟩ := loadLeaves_spec F h0
  simp only [List.nil_append, List.length_nil, zero_add, List.map_nil, List.sum_nil] at l1 l3 l4
  rw [l1] at l2
  have hk : (leavesOf F).length = F.length := by simp [leavesOf]
  obtain ⟨M, r, m1, m2, m3, m4, m5⟩ := mergeLoop_spec (F.length - 1) l2 (by omega) (k := F.length)
    (fun p h1 h2 => absurd h2 (by omega))
  have hb : buildTree F = (leavesOf F ++ M, ⟨true, r.idx⟩) := by
    simp only [buildTree]
    rw [l1, m1]
    rfl
  have htotal : (leavesOf F ++ M).length = 2 * F.length - 1 := by simp [hk, m2]; omega
  have htake : (leavesOf F ++ M).take F.length = leavesOf F := by
    rw [← hk, List.take_left]
  have hr : r.idx = 2 * F.length - 2 := by
    have hlast : (2 * F.length - 2) ∈ [r].map Key.idx := by
      rw [m3.mem_iff, htotal]
      refine ⟨by omega, fun hc => ?_⟩
      obtain ⟨p, f, l, r', hp, hlr⟩ := mem_childIndices.1 hc
      have hplt : p < (leavesOf F ++ M).length := (List.getElem?_eq_some_iff.1 hp).1
      rcases Nat.lt_or_ge p F.length with hpk | hpk
      · have : (leavesOf F)[p]? = some (.internal f l r') := by
          rw [← htake, List.getElem?_take_of_lt hpk, hp]
        simp [leavesOf] at this
      · have := (m5 p hpk hplt).lt hp
        rw [htotal] at hplt
        rcases hlr with rfl | rfl <;> omega
    simpa [eq_comm] using hlast
  rw [hb]
  refine ⟨htotal, htake, m5, by simp [hr], by simpa using m3.perm, ?_⟩
  rw [← m3.keys r (by simp), m4, l4]

end Sys2Proof.Machine
end

