-- ==== Sys2Proof/Laws/TreeWf.lean ====
section
/-! SUPPORT. What a well-formed tree gives (10_state.md R38): the two kinds of node, one parent for every
node but the root, one path to every node; and that BUILD's tree is well formed. -/

namespace Sys2Proof.Machine

/-- The two kinds of node of a valid tree. -/
theorem TreeValid.node_cases {N : List NodeRec} {root : Root} (h : TreeValid N root) {p : Nat}
    (hp : p < N.length) :
    (∃ a f, N[p]? = some (.leaf a f) ∧ p < leafCount N ∧ 1 ≤ f) ∨
      ∃ f l r, N[p]? = some (.internal f l r) ∧ leafCount N ≤ p ∧ l < p ∧ r < p ∧ l ≠ r ∧
        f = freqAt N l + freqAt N r := by
  have hok := h.2.2.2.2.1 p hp
  unfold nodeOk at hok
  split at hok
  · simp at hok
  · rename_i a f hN
    exact .inl ⟨a, f, hN, by simpa using hok⟩
  · rename_i f l r hN
    refine .inr ⟨f, l, r, hN, ?_⟩
    simp only [Bool.and_eq_true, decide_eq_true_eq] at hok
    tauto

theorem TreeValid.internal {N : List NodeRec} {root : Root} (h : TreeValid N root) {p f l r : Nat}
    (hp : N[p]? = some (.internal f l r)) :
    leafCount N ≤ p ∧ l < p ∧ r < p ∧ l ≠ r ∧ f = freqAt N l + freqAt N r := by
  have hlt := (List.getElem?_eq_some_iff.1 hp).1
  rcases h.node_cases hlt with ⟨a, f', h1, -⟩ | ⟨f', l', r', h1, h2⟩
  · rw [hp] at h1; simp at h1
  · rw [hp] at h1
    simp only [Option.some.injEq, NodeRec.internal.injEq] at h1
    obtain ⟨rfl, rfl, rfl⟩ := h1
    exact h2

theorem TreeValid.root_lt {N : List NodeRec} {root : Root} (h : TreeValid N root) :
    root.idx < N.length := by have := h.2.2.1; omega

theorem TreeValid.leafCount_eq {N : List NodeRec} {root : Root} (h : TreeValid N root) :
    N.length + 1 = 2 * leafCount N ∧ 1 ≤ leafCount N := by
  have h1 := h.2.1
  have h2 := h.2.2.1
  unfold leafCount
  omega

/-- The root is a leaf exactly when the tree is degenerate. -/
theorem TreeValid.root_cases {N : List NodeRec} {root : Root} (h : TreeValid N root) :
    (leafCount N = 1 ∧ root.idx = 0 ∧ ∃ a f, N[root.idx]? = some (.leaf a f)) ∨
      (2 ≤ leafCount N ∧ ∃ f l r, N[root.idx]? = some (.internal f l r)) := by
  have hl := h.leafCount_eq
  have hr := h.2.2.1
  rcases h.node_cases h.root_lt with ⟨a, f, h1, h2, -⟩ | ⟨f, l, r, h1, h2, h3, h4, h5, -⟩
  · exact .inl ⟨by omega, by omega, a, f, h1⟩
  · exact .inr ⟨by omega, f, l, r, h1⟩

theorem TreeValid.childIndices_nodup {N : List NodeRec} {root : Root} (h : TreeValid N root) :
    (childIndices N).Nodup := by
  rw [List.nodup_iff_count_le_one]
  intro i
  by_cases hi : i < N.length
  · rw [h.2.2.2.2.2 i hi]; split <;> omega
  · have : i ∉ childIndices N := fun hm => by
      obtain ⟨p, f, l, r, hp, hlr⟩ := mem_childIndices.1 hm
      have := h.internal hp
      have := (List.getElem?_eq_some_iff.1 hp).1
      omega
    rw [List.count_eq_zero_of_not_mem this]; omega

theorem TreeValid.mem_childIndices_iff {N : List NodeRec} {root : Root} (h : TreeValid N root) {i : Nat}
    (hi : i < N.length) : i ∈ childIndices N ↔ i ≠ root.idx := by
  have hr := h.2.2.1
  rw [← List.count_pos_iff, h.2.2.2.2.2 i hi]
  split <;> omega

/-- In a node list with no repeated child, a node has one parent. -/
theorem parent_unique {N : List NodeRec} (h : (childIndices N).Nodup) {x p q f l r g l' r' : Nat}
    (hp : N[p]? = some (.internal f l r)) (hq : N[q]? = some (.internal g l' r'))
    (hx : x = l ∨ x = r) (hx' : x = l' ∨ x = r') : p = q := by
  induction N generalizing p q with
  | nil => simp at hp
  | cons n N ih =>
    have htail : (childIndices N).Nodup := by
      cases n with
      | leaf _ _ => exact h
      | internal _ _ _ => exact (List.nodup_cons.1 (List.nodup_cons.1 h).2).2
    cases p with
    | zero =>
      cases q with
      | zero => rfl
      | succ q =>
        exfalso
        have hm : x ∈ childIndices N := mem_childIndices.2 ⟨q, g, l', r', by simpa using hq, hx'⟩
        simp only [List.getElem?_cons_zero, Option.some.injEq] at hp
        subst hp
        simp only [childIndices, List.nodup_cons, List.mem_cons, not_or] at h
        rcases hx with rfl | rfl
        · exact h.1.2 hm
        · exact h.2.1 hm
    | succ p =>
      cases q with
      | zero =>
        exfalso
        have hm : x ∈ childIndices N := mem_childIndices.2 ⟨p, f, l, r, by simpa using hp, hx⟩
        simp only [List.getElem?_cons_zero, Option.some.injEq] at hq
        subst hq
        simp only [childIndices, List.nodup_cons, List.mem_cons, not_or] at h
        rcases hx' with rfl | rfl
        · exact h.1.2 hm
        · exact h.2.1 hm
      | succ q =>
        exact congrArg (· + 1) (ih htail (p := p) (q := q) (by simpa using hp) (by simpa using hq))

/-- In a node list with no repeated leaf symbol, a symbol is at one leaf. -/
theorem leaf_unique {N : List NodeRec} (h : (leafSymbols N).Nodup) {a : Symbol} {p q f g : Nat}
    (hp : N[p]? = some (.leaf a f)) (hq : N[q]? = some (.leaf a g)) : p = q := by
  induction N generalizing p q with
  | nil => simp at hp
  | cons n N ih =>
    have htail : (leafSymbols N).Nodup := by
      cases n with
      | leaf _ _ => exact (List.nodup_cons.1 h).2
      | internal _ _ _ => exact h
    cases p with
    | zero =>
      cases q with
      | zero => rfl
      | succ q =>
        exfalso
        have hm : a ∈ leafSymbols N := mem_leafSymbols.2 ⟨q, g, by simpa using hq⟩
        simp only [List.getElem?_cons_zero, Option.some.injEq] at hp
        subst hp
        exact (List.nodup_cons.1 h).1 hm
    | succ p =>
      cases q with
      | zero =>
        exfalso
        have hm : a ∈ leafSymbols N := mem_leafSymbols.2 ⟨p, f, by simpa using hp⟩
        simp only [List.getElem?_cons_zero, Option.some.injEq] at hq
        subst hq
        exact (List.nodup_cons.1 h).1 hm
      | succ q =>
        exact congrArg (· + 1) (ih htail (p := p) (q := q) (by simpa using hp) (by simpa using hq))

/-! ## Paths -/

theorem follow_append (N : List NodeRec) (n : Nat) (c c' : List Digit) :
    follow N n (c ++ c') = (follow N n c).bind fun m => follow N m c' := by
  induction c generalizing n with
  | nil => rfl
  | cons d c ih =>
    simp only [List.cons_append, follow]
    cases N[n]? with
    | none => rfl
    | some x => cases x <;> simp [ih]

/-- One digit more: the node before it is internal and the digit names the child. -/
theorem follow_concat {N : List NodeRec} {n m : Nat} {c : List Digit} {d : Digit} :
    follow N n (c ++ [d]) = some m ↔
      ∃ p f l r, follow N n c = some p ∧ N[p]? = some (.internal f l r) ∧
        m = if d then r else l := by
  rw [follow_append]
  cases hc : follow N n c with
  | none => simp
  | some p =>
    simp only [Option.bind_some, follow, Option.some.injEq]
    cases hp : N[p]? with
    | none => simp [hp]
    | some x => cases x <;> simp [hp, eq_comm]

/-- A path goes to lower indices. -/
theorem TreeValid.follow_lt {N : List NodeRec} {root : Root} (h : TreeValid N root) {n m : Nat}
    {c : List Digit} (hf : follow N n c = some m) : m + c.length ≤ n := by
  induction c generalizing n with
  | nil => simpa [follow] using Nat.le_of_eq (by simpa [follow] using hf.symm)
  | cons d c ih =>
    simp only [follow] at hf
    split at hf
    · rename_i f l r hn
      have h1 := h.internal hn
      have h2 := ih hf
      simp only [List.length_cons]
      split at h2 <;> omega
    · simp at hf
    · simp at hf

/-- A node is reached from the root along one path only. -/
theorem TreeValid.path_unique {N : List NodeRec} {root : Root} (h : TreeValid N root) {m : Nat}
    {c c' : List Digit} (hc : follow N root.idx c = some m) (hc' : follow N root.idx c' = some m) :
    c = c' := by
  induction c using List.reverseRecOn generalizing m c' with
  | nil =>
    have hm : m = root.idx := by simpa [follow] using hc.symm
    have := h.follow_lt hc'
    have : c'.length = 0 := by omega
    exact (List.length_eq_zero_iff.1 this).symm
  | append_singleton c d ih =>
    obtain ⟨p, f, l, r, h1, h2, h3⟩ := follow_concat.1 hc
    induction c' using List.reverseRecOn with
    | nil =>
      have hm : m = root.idx := by simpa [follow] using hc'.symm
      have := h.follow_lt hc
      simp at this
      omega
    | append_singleton c' d' _ =>
      obtain ⟨p', f', l', r', h1', h2', h3'⟩ := follow_concat.1 hc'
      obtain rfl : p = p' := parent_unique h.childIndices_nodup (x := m) h2 h2'
        (by rw [h3]; cases d <;> simp) (by rw [h3']; cases d' <;> simp)
      rw [h2] at h2'
      simp only [Option.some.injEq, NodeRec.internal.injEq] at h2'
      obtain ⟨rfl, rfl, rfl⟩ := h2'
      have hne := (h.internal h2).2.2.2.1
      rw [ih h1 h1']
      cases d <;> cases d' <;> simp_all

/-- Every node is reached from the root: "the nodes reachable from the root are all of
`NODE[0..c-1]`". -/
theorem TreeValid.reached {N : List NodeRec} {root : Root} (h : TreeValid N root) {m : Nat}
    (hm : m < N.length) : ∃ c, follow N root.idx c = some m := by
  by_cases hr : m = root.idx
  · exact ⟨[], by simp [follow, hr]⟩
  · obtain ⟨p, f, l, r, hp, hlr⟩ := mem_childIndices.1 ((h.mem_childIndices_iff hm).2 hr)
    have hi := h.internal hp
    have hlt := (List.getElem?_eq_some_iff.1 hp).1
    have hmp : m < p := by omega
    obtain ⟨c, hc⟩ := h.reached hlt
    rcases hlr with rfl | rfl
    · exact ⟨c ++ [false], follow_concat.2 ⟨p, f, m, r, hc, hp, by simp⟩⟩
    · exact ⟨c ++ [true], follow_concat.2 ⟨p, f, l, m, hc, hp, by simp⟩⟩
termination_by N.length - m

/-- No node is heavier than the root. -/
theorem TreeValid.freqAt_le_root {N : List NodeRec} {root : Root} (h : TreeValid N root) {m : Nat}
    (hm : m < N.length) : freqAt N m ≤ freqAt N root.idx := by
  by_cases hr : m = root.idx
  · rw [hr]
  · obtain ⟨p, f, l, r, hp, hlr⟩ := mem_childIndices.1 ((h.mem_childIndices_iff hm).2 hr)
    have hi := h.internal hp
    have hlt := (List.getElem?_eq_some_iff.1 hp).1
    have hmp : m < p := by omega
    refine le_trans ?_ (h.freqAt_le_root hlt)
    rw [freqAt_of_getElem? hp, nodeFreq, hi.2.2.2.2]
    rcases hlr with rfl | rfl <;> omega
termination_by N.length - m

/-- A symbol's path is determined by the symbol. -/
theorem TreeValid.code_unique {N : List NodeRec} {root : Root} (h : TreeValid N root) {a : Symbol}
    {c c' : List Digit} (hc : LeadsToLeaf N root.idx c a) (hc' : LeadsToLeaf N root.idx c' a) :
    c = c' := by
  obtain ⟨m, f, h1, h2⟩ := hc
  obtain ⟨m', f', h1', h2'⟩ := hc'
  obtain rfl := leaf_unique h.2.2.2.1 h2 h2'
  exact h.path_unique h1 h1'

/-- The leaf a path leads to is determined by the path. -/
theorem LeadsToLeaf.symbol_unique {N : List NodeRec} {n : Nat} {c : List Digit} {a b : Symbol}
    (ha : LeadsToLeaf N n c a) (hb : LeadsToLeaf N n c b) : a = b := by
  obtain ⟨m, f, h1, h2⟩ := ha
  obtain ⟨m', f', h1', h2'⟩ := hb
  obtain rfl : m = m' := by simpa [h1] using h1'
  rw [h2] at h2'
  simp at h2'
  exact h2'.1

/-! ## BUILD's tree -/

theorem BuiltTree.leaf {F : List FtEntry} {N : List NodeRec} {root : Root} (h : BuiltTree F N root)
    {i : Nat} {e : FtEntry} (he : F[i]? = some e) : N[i]? = some (.leaf e.sym e.count) := by
  have hlt := (List.getElem?_eq_some_iff.1 he).1
  rw [← List.getElem?_take_of_lt hlt, h.leaves, leavesOf, List.getElem?_map, he]
  rfl

/-- BUILD's tree satisfies 10_state.md R38. -/
theorem BuiltTree.treeValid {F : List FtEntry} {N : List NodeRec} {root : Root}
    (h : BuiltTree F N root) (hF : Buildable F) : TreeValid N root := by
  have hpos : 0 < F.length := List.length_pos_of_ne_nil hF.1
  have hlen := h.length
  have hk : leafCount N = F.length := by unfold leafCount; omega
  refine ⟨by rw [h.root_eq], by omega, by rw [h.root_eq]; simp only; omega, ?_, ?_, ?_⟩
  · have hdrop : leafSymbols (N.drop F.length) = [] := by
      rw [List.eq_nil_iff_forall_not_mem]
      intro a ha
      obtain ⟨p, f, hp⟩ := mem_leafSymbols.1 ha
      rw [List.getElem?_drop] at hp
      have hlt := (List.getElem?_eq_some_iff.1 hp).1
      obtain ⟨l, r, hm, -⟩ := h.merged (F.length + p) (by omega) hlt
      rw [hp] at hm
      simp at hm
    rw [← List.take_append_drop F.length N, leafSymbols_append, hdrop, h.leaves, leavesOf,
      leafSymbols_leaves, List.append_nil]
    exact hF.2.2
  · intro p hp
    unfold nodeOk
    rcases Nat.lt_or_ge p F.length with hlt | hge
    · have he : F[p]? = some F[p] := List.getElem?_eq_getElem hlt
      rw [h.leaf he]
      simpa [hk, hlt] using hF.2.1 _ (List.getElem_mem hlt)
    · obtain ⟨l, r, hm, -⟩ := id (h.merged p hge hp)
      have := (h.merged p hge hp).lt hm
      rw [hm]
      simp [hk, this, hge]
  · intro i hi
    have hc := h.children.count_eq i
    rw [List.count_append, List.count_range] at hc
    simp only [hi, if_true, h.root_eq, List.count_singleton] at hc
    by_cases hi' : i + 1 < N.length
    · rw [if_pos hi']
      have : ¬ (2 * F.length - 2 = i) := by omega
      simpa [this] using hc
    · rw [if_neg hi']
      have : 2 * F.length - 2 = i := by omega
      simpa [this] using hc

/-- The frequencies of the merged nodes are non-decreasing (41_tree_builder.md R119). -/
theorem BuiltTree.freq_succ {F : List FtEntry} {N : List NodeRec} {root : Root}
    (h : BuiltTree F N root) {p : Nat} (hp : F.length ≤ p) (hp' : p + 1 < N.length) :
    freqAt N p ≤ freqAt N (p + 1) := by
  obtain ⟨l, r, h1, hl, hr, hlr, hlow⟩ := h.merged p hp (by omega)
  obtain ⟨l', r', h1', hl', hr', hlr', -⟩ := h.merged (p + 1) (by omega) hp'
  have htake : N.take (p + 1) = N.take p ++ [.internal (freqAt N l + freqAt N r) l r] := by
    rw [List.take_add_one, h1]; rfl
  have hp1 : freqAt N p = freqAt N l + freqAt N r := freqAt_of_getElem? h1
  have hp2 : freqAt N (p + 1) = freqAt N l' + freqAt N r' := freqAt_of_getElem? h1'
  have hlr1 : freqAt N l ≤ freqAt N r := by rcases hlr with h | h <;> omega
  have low (x : Nat) (hx : Waiting N (p + 1) x) : freqAt N r ≤ freqAt N x := by
    obtain ⟨hx1, hx2⟩ := hx
    rw [htake, childIndices_append] at hx2
    simp only [childIndices, List.mem_append, List.mem_cons, not_or] at hx2
    rcases Nat.lt_or_ge x p with hxp | hxp
    · have := hlow x ⟨hxp, hx2.1⟩ hx2.2.1 hx2.2.2.1
      rcases this with h | h <;> omega
    · obtain rfl : x = p := by omega
      omega
  have := low l' hl'
  have := low r' hr'
  omega

end Sys2Proof.Machine
end

