-- ==== Sys2Proof/Laws/CodeTable.lean ====
section
/-! SUPPORT. What TABLE's walk gives on a well-formed tree (42_code_table_generator.md R131, R134). -/

namespace Sys2Proof.Machine

/-- The walk from an internal node, by the paths of its two subtrees. -/
theorem leadsToLeaf_internal {N : List NodeRec} {n f l r : Nat} (h : N[n]? = some (.internal f l r))
    {c : List Digit} {a : Symbol} :
    LeadsToLeaf N n c a ↔
      (∃ u, c = false :: u ∧ LeadsToLeaf N l u a) ∨ (∃ u, c = true :: u ∧ LeadsToLeaf N r u a) := by
  cases c with
  | nil =>
    constructor
    · rintro ⟨m, g, hm, hl⟩
      obtain rfl : m = n := by simpa [follow] using hm.symm
      rw [h] at hl; simp at hl
    · rintro (⟨u, hu, -⟩ | ⟨u, hu, -⟩) <;> simp at hu
  | cons d u => cases d <;> simp [LeadsToLeaf, follow, h]

theorem leadsToLeaf_leaf {N : List NodeRec} {n f : Nat} {b : Symbol} (h : N[n]? = some (.leaf b f))
    {c : List Digit} {a : Symbol} : LeadsToLeaf N n c a ↔ c = [] ∧ a = b := by
  cases c with
  | nil =>
    constructor
    · rintro ⟨m, g, hm, hl⟩
      obtain rfl : m = n := by simpa [follow] using hm.symm
      rw [h] at hl
      simp at hl
      exact ⟨rfl, hl.1.symm⟩
    · rintro ⟨-, rfl⟩
      exact ⟨n, f, rfl, h⟩
  | cons d u => simp [LeadsToLeaf, follow, h]

/-- Two codes in the order the walk records them: where they first differ, the earlier has 0. -/
abbrev CodeBefore (x y : CtEntry) : Prop :=
  ∃ c u v, x.code = c ++ false :: u ∧ y.code = c ++ true :: v

theorem CodeBefore.apart {x y : CtEntry} (h : CodeBefore x y) : CodesApart x.code y.code := by
  obtain ⟨c, u, v, h1, h2⟩ := h
  rw [h1, h2]
  constructor <;> rintro ⟨t, ht⟩ <;> simp [List.append_assoc] at ht

/-- What the walk from node `n` with the digits `pre` gives. -/
structure WalkOk (N : List NodeRec) (n : Nat) (pre : List Digit) (T : List CtEntry) : Prop where
  mem : ∀ a c, (⟨a, c⟩ : CtEntry) ∈ T ↔ ∃ u, c = pre ++ u ∧ LeadsToLeaf N n u a
  order : T.Pairwise CodeBefore
  depth : ∀ e ∈ T, e.code.length + 1 ≤ pre.length + T.length
  first : ∃ e u, T.head? = some e ∧ e.code = pre ++ u ∧ ∀ d ∈ u, d = false
  last : ∃ e u, T.getLast? = some e ∧ e.code = pre ++ u ∧ ∀ d ∈ u, d = true

theorem WalkOk.ne_nil {N : List NodeRec} {n : Nat} {pre : List Digit} {T : List CtEntry}
    (h : WalkOk N n pre T) : T ≠ [] := by
  obtain ⟨e, u, he, -⟩ := h.first
  rintro rfl
  simp at he

/-- The two subtrees' tables, one after the other. -/
theorem WalkOk.append {N : List NodeRec} {n f l r : Nat} {pre : List Digit} {L R : List CtEntry}
    (hn : N[n]? = some (.internal f l r)) (hL : WalkOk N l (pre ++ [false]) L)
    (hR : WalkOk N r (pre ++ [true]) R) : WalkOk N n pre (L ++ R) := by
  have hLlen := List.length_pos_of_ne_nil hL.ne_nil
  have hRlen := List.length_pos_of_ne_nil hR.ne_nil
  refine ⟨fun a c => ?_, ?_, fun e he => ?_, ?_, ?_⟩
  · rw [List.mem_append, hL.mem, hR.mem]
    simp only [leadsToLeaf_internal hn]
    constructor
    · rintro (⟨u, rfl, hu⟩ | ⟨u, rfl, hu⟩)
      · exact ⟨false :: u, by simp, .inl ⟨u, rfl, hu⟩⟩
      · exact ⟨true :: u, by simp, .inr ⟨u, rfl, hu⟩⟩
    · rintro ⟨u, rfl, ⟨v, rfl, hv⟩ | ⟨v, rfl, hv⟩⟩
      · exact .inl ⟨v, by simp, hv⟩
      · exact .inr ⟨v, by simp, hv⟩
  · refine List.pairwise_append.2 ⟨hL.order, hR.order, fun x hx y hy => ?_⟩
    obtain ⟨u, hu, -⟩ := (hL.mem x.sym x.code).1 hx
    obtain ⟨v, hv, -⟩ := (hR.mem y.sym y.code).1 hy
    exact ⟨pre, u, v, by rw [hu]; simp, by rw [hv]; simp⟩
  · rw [List.length_append]
    rcases List.mem_append.1 he with he | he
    · have := hL.depth e he
      simp at this
      omega
    · have := hR.depth e he
      simp at this
      omega
  · obtain ⟨e, u, h1, h2, h3⟩ := hL.first
    refine ⟨e, false :: u, ?_, by rw [h2]; simp, by simpa using h3⟩
    rw [List.head?_append, h1]; rfl
  · obtain ⟨e, u, h1, h2, h3⟩ := hR.last
    refine ⟨e, true :: u, ?_, by rw [h2]; simp, by simpa using h3⟩
    rw [List.getLast?_append, h1]; rfl

/-- On a valid tree the walk from a node succeeds with any fuel above its index. -/
theorem TreeValid.walk {N : List NodeRec} {root : Root} (h : TreeValid N root) {fuel n : Nat}
    (hn : n < N.length) (hf : n < fuel) (pre : List Digit) :
    ∃ T, walk fuel N n pre = some T ∧ WalkOk N n pre T := by
  induction fuel generalizing n pre with
  | zero => omega
  | succ fuel ih =>
    rcases h.node_cases hn with ⟨a, f, h1, -⟩ | ⟨f, l, r, h1, -, hl, hr, -⟩
    · refine ⟨[⟨a, pre⟩], by simp [Machine.walk, h1], ?_, by simp, by simp, ?_, ?_⟩
      · intro b c
        simp only [leadsToLeaf_leaf h1, List.mem_singleton, CtEntry.mk.injEq]
        constructor
        · rintro ⟨rfl, rfl⟩; exact ⟨[], by simp⟩
        · rintro ⟨u, rfl, rfl, rfl⟩; simp
      · exact ⟨⟨a, pre⟩, [], rfl, by simp, by simp⟩
      · exact ⟨⟨a, pre⟩, [], rfl, by simp, by simp⟩
    · obtain ⟨L, hL, hL'⟩ := ih (n := l) (by omega) (by omega) (pre ++ [false])
      obtain ⟨R, hR, hR'⟩ := ih (n := r) (by omega) (by omega) (pre ++ [true])
      exact ⟨L ++ R, by simp [Machine.walk, h1, hL, hR], hL'.append h1 hR'⟩

/-- TABLE on a valid tree: the table of the root's paths. -/
theorem TreeValid.codeTable {N : List NodeRec} {root : Root} (h : TreeValid N root) :
    ∃ T, codeTable N root = some T ∧ WalkOk N root.idx [] T := by
  obtain ⟨T, h1, h2⟩ := h.walk h.root_lt h.root_lt []
  exact ⟨T, by simp [Machine.codeTable, h.1, h1], h2⟩

/-- An entry of the table is a path from the root to a leaf with its symbol. -/
theorem WalkOk.mem_root {N : List NodeRec} {n : Nat} {T : List CtEntry} (h : WalkOk N n [] T)
    {a : Symbol} {c : List Digit} : (⟨a, c⟩ : CtEntry) ∈ T ↔ LeadsToLeaf N n c a := by
  simpa using h.mem a c

/-- The symbols of the table are pairwise distinct (42_code_table_generator.md R134 (a)). -/
theorem TreeValid.table_syms_nodup {N : List NodeRec} {root : Root} (h : TreeValid N root)
    {T : List CtEntry} (hT : WalkOk N root.idx [] T) : (T.map CtEntry.sym).Nodup := by
  rw [List.Nodup, List.pairwise_map]
  refine hT.order.imp_of_mem fun {x y} hx hy hxy he => ?_
  have hx' := hT.mem_root.1 (show (⟨x.sym, x.code⟩ : CtEntry) ∈ T from hx)
  have hy' := hT.mem_root.1 (show (⟨y.sym, y.code⟩ : CtEntry) ∈ T from hy)
  rw [he] at hx'
  have := h.code_unique hx' hy'
  exact (CodeBefore.apart hxy).1 (this ▸ List.prefix_rfl)

/-- The table has one entry for each leaf (42_code_table_generator.md R134 (a)). -/
theorem TreeValid.table_length {N : List NodeRec} {root : Root} (h : TreeValid N root)
    {T : List CtEntry} (hT : WalkOk N root.idx [] T) : T.length = leafCount N := by
  have hl := h.leafCount_eq
  have hperm : (T.map fun e => follow N root.idx e.code).Perm ((List.range (leafCount N)).map some) := by
    rw [List.perm_ext_iff_of_nodup]
    · intro o
      simp only [List.mem_map, List.mem_range]
      constructor
      · rintro ⟨e, he, rfl⟩
        obtain ⟨m, f, hm, hleaf⟩ := hT.mem_root.1 (show (⟨e.sym, e.code⟩ : CtEntry) ∈ T from he)
        have hlt := (List.getElem?_eq_some_iff.1 hleaf).1
        refine ⟨m, ?_, hm.symm⟩
        rcases h.node_cases hlt with ⟨a, g, -, h2, -⟩ | ⟨g, l, r, h1, -⟩
        · exact h2
        · rw [hleaf] at h1; simp at h1
      · rintro ⟨m, hm, rfl⟩
        have hlt : m < N.length := by omega
        obtain ⟨c, hc⟩ := h.reached hlt
        rcases h.node_cases hlt with ⟨a, f, h1, -⟩ | ⟨g, l, r, -, h2, -⟩
        · exact ⟨⟨a, c⟩, hT.mem_root.2 ⟨m, f, hc, h1⟩, hc⟩
        · omega
    · rw [List.Nodup, List.pairwise_map]
      refine hT.order.imp_of_mem fun {x y} hx _ hxy he => ?_
      obtain ⟨m, f, hm, -⟩ := hT.mem_root.1 (show (⟨x.sym, x.code⟩ : CtEntry) ∈ T from hx)
      have := h.path_unique hm (he ▸ hm)
      exact (CodeBefore.apart hxy).1 (this ▸ List.prefix_rfl)
    · exact List.nodup_range.map (Option.some_injective _)
  simpa using hperm.length_eq

/-- The code is complete (42_code_table_generator.md R134 (d)): every digit sequence meets a leaf's path. -/
theorem TreeValid.complete {N : List NodeRec} {root : Root} (h : TreeValid N root) {n : Nat}
    (hn : n < N.length) (E : List Digit) :
    ∃ c a, LeadsToLeaf N n c a ∧ (E <+: c ∨ c <+: E) := by
  rcases h.node_cases hn with ⟨a, f, h1, -⟩ | ⟨f, l, r, h1, -, hl, hr, -⟩
  · exact ⟨[], a, (leadsToLeaf_leaf h1).2 ⟨rfl, rfl⟩, .inr List.nil_prefix⟩
  · cases E with
    | nil =>
      obtain ⟨c, a, hc, -⟩ := h.complete (n := l) (by omega) []
      exact ⟨false :: c, a, (leadsToLeaf_internal h1).2 (.inl ⟨c, rfl, hc⟩), .inl List.nil_prefix⟩
    | cons d E =>
      cases d with
      | false =>
        obtain ⟨c, a, hc, hE⟩ := h.complete (n := l) (by omega) E
        exact ⟨false :: c, a, (leadsToLeaf_internal h1).2 (.inl ⟨c, rfl, hc⟩),
          by simpa [List.cons_prefix_cons] using hE⟩
      | true =>
        obtain ⟨c, a, hc, hE⟩ := h.complete (n := r) (by omega) E
        exact ⟨true :: c, a, (leadsToLeaf_internal h1).2 (.inr ⟨c, rfl, hc⟩),
          by simpa [List.cons_prefix_cons] using hE⟩
termination_by n

end Sys2Proof.Machine
end

