-- ==== Sys2Proof/Laws/Count.lean ====
section
/-! SUPPORT. What COUNT's loop computes (40_frequency_counter.md R100, R101): the occurrence table. -/

namespace Sys2Proof.Machine

theorem countFrom_append (S S' : List Symbol) (T : List FtEntry) :
    countFrom (S ++ S') T = countFrom S' (countFrom S T) := by
  induction S generalizing T with
  | nil => rfl
  | cons s S ih => exact ih _

/-- One pass on a table without the symbol appends it; on a table with it, its count is incremented. -/
theorem countSymbol_table (a : Symbol) (L : List Symbol) (f : Symbol → Nat) (hL : L.Nodup) :
    countSymbol a (L.map fun x => ⟨x, f x⟩) =
      if a ∈ L then L.map fun x => ⟨x, if x = a then f x + 1 else f x⟩
      else (L.map fun x => (⟨x, f x⟩ : FtEntry)) ++ [⟨a, 1⟩] := by
  induction L with
  | nil => rfl
  | cons b L ih =>
    rw [List.nodup_cons] at hL
    simp only [List.map_cons, countSymbol]
    by_cases hb : b = a
    · subst hb
      have : ∀ x ∈ L, x ≠ b := fun x hx h => hL.1 (h ▸ hx)
      simp +contextual [this]
    · rw [if_neg hb, ih hL.2]
      by_cases ha : a ∈ L <;> simp [ha, hb, Ne.symm hb, eq_comm]

/-- The distinct symbols in order of first occurrence, extended by one symbol. -/
theorem eraseDups_concat (S : List Symbol) (a : Symbol) :
    (S ++ [a]).eraseDups = if a ∈ S then S.eraseDups else S.eraseDups ++ [a] := by
  rw [List.eraseDups_append]
  by_cases h : a ∈ S
  · simp [h, List.removeAll]
  · simp only [List.removeAll, h, if_false]
    simp [h]
    rfl

theorem mem_eraseDups {S : List Symbol} {a : Symbol} : a ∈ S.eraseDups ↔ a ∈ S := by
  induction S using List.reverseRecOn with
  | nil => simp
  | append_singleton S b ih =>
    rw [eraseDups_concat]
    split <;> simp [ih]
    rintro rfl; assumption

theorem nodup_eraseDups (S : List Symbol) : S.eraseDups.Nodup := by
  induction S using List.reverseRecOn with
  | nil => simp
  | append_singleton S b ih =>
    rw [eraseDups_concat]
    split
    · exact ih
    · rename_i h
      rw [List.nodup_append]
      refine ⟨ih, by simp, ?_⟩
      intro x hx y hy hxy
      simp only [List.mem_singleton] at hy
      exact h (mem_eraseDups.1 (hy ▸ hxy ▸ hx))

/-- COUNT's loop gives the occurrence table of SYM. -/
theorem countFrom_eq_occurrenceTable (S : List Symbol) : countFrom S [] = occurrenceTable S := by
  induction S using List.reverseRecOn with
  | nil => rfl
  | append_singleton S a ih =>
    rw [countFrom_append, ih]
    show countSymbol a (occurrenceTable S) = _
    rw [occurrenceTable, countSymbol_table a _ _ (nodup_eraseDups S), occurrenceTable,
      eraseDups_concat]
    by_cases h : a ∈ S
    · rw [if_pos (mem_eraseDups.2 h), if_pos h]
      refine List.map_congr_left fun x hx => ?_
      by_cases hx : x = a
      · subst hx; simp
      · simp [hx, Ne.symm hx]
    · rw [if_neg (mt mem_eraseDups.1 h), if_neg h, List.map_append]
      congr 1
      · refine List.map_congr_left fun x hx => ?_
        have : x ≠ a := fun e => h (e ▸ mem_eraseDups.1 hx)
        simp [Ne.symm this]
      · simp [List.count_eq_zero_of_not_mem h]

theorem occurrenceTable_syms (S : List Symbol) :
    (occurrenceTable S).map FtEntry.sym = S.eraseDups := by
  simp [occurrenceTable, Function.comp_def]

theorem mem_occurrenceTable {S : List Symbol} {e : FtEntry} :
    e ∈ occurrenceTable S ↔ e.sym ∈ S ∧ e.count = S.count e.sym := by
  simp only [occurrenceTable, List.mem_map, mem_eraseDups]
  constructor
  · rintro ⟨a, ha, rfl⟩; exact ⟨ha, rfl⟩
  · rintro ⟨h1, h2⟩; exact ⟨e.sym, h1, by cases e; simp_all⟩

/-- Frequency conservation (40_frequency_counter.md R101 (c)). -/
theorem occurrenceTable_sum (S : List Symbol) : sumCounts (occurrenceTable S) = S.length := by
  have hmap : (occurrenceTable S).map FtEntry.count = S.eraseDups.map fun a => S.count a := by
    simp [occurrenceTable, Function.comp_def]
  rw [sumCounts, hmap, ← List.sum_toFinset _ (nodup_eraseDups S)]
  have : S.eraseDups.toFinset = S.toFinset := by
    ext a; simp
  rw [this]
  exact List.sum_toFinset_count_eq_length S

/-- A table COUNT made from a non-empty SYM passes BUILD's check (40_frequency_counter.md R101). -/
theorem occurrenceTable_buildable {S : List Symbol} (h : S ≠ []) : Buildable (occurrenceTable S) := by
  refine ⟨?_, ?_, ?_⟩
  · obtain ⟨a, ha⟩ := List.exists_mem_of_ne_nil S h
    exact List.ne_nil_of_mem (mem_occurrenceTable.2 ⟨ha, rfl⟩ : (⟨a, S.count a⟩ : FtEntry) ∈ _)
  · intro e he
    obtain ⟨h1, h2⟩ := mem_occurrenceTable.1 he
    rw [h2]
    exact List.count_pos_iff.2 h1
  · rw [occurrenceTable_syms]; exact nodup_eraseDups S

/-- COUNT's result, by cases of whether the table fits (40_frequency_counter.md R100, R102). -/
theorem execCount_eq (s : State) :
    execCount s = .next (complete (countStatus s.params (occurrenceTable s.mem.sym)) .ft
      (fun s' => s'.store (.ft (occurrenceTable s.mem.sym))) s) := by
  rw [execCount, countFrom_eq_occurrenceTable]

end Sys2Proof.Machine
end

