-- ==== Sys2Proof/Laws/Decode.lean ====
section
/-! SUPPORT. What DECODE's loop gives on a well-formed tree (44_decoder.md R153 to R156). -/

namespace Sys2Proof.Machine

/-- From an internal node, the digits of a path to a leaf emit the leaf's symbol and return to the root. -/
theorem decodeFrom_leaf {N : List NodeRec} {root n : Nat} {c : List Digit} {a : Symbol} (hc : c ≠ [])
    (h : LeadsToLeaf N n c a) (E : List Digit) :
    decodeFrom N root n (c ++ E) =
      match decodeFrom N root root E with
      | none => none
      | some (D, p) => some (a :: D, p) := by
  induction c generalizing n with
  | nil => exact absurd rfl hc
  | cons d c ih =>
    obtain ⟨m, f, hm, hl⟩ := h
    simp only [follow] at hm
    split at hm
    · rename_i g l r hn
      have hch : childOn N n d = some (if d then r else l) := by simp [childOn, hn]
      simp only [List.cons_append, decodeFrom, hch]
      cases c with
      | nil =>
        simp only [follow, Option.some.injEq] at hm
        rw [hm, hl]
        rfl
      | cons d' c =>
        have hq := hm
        simp only [follow] at hq
        split at hq
        · rename_i g' l' r' hn'
          rw [hn']
          exact ih (by simp) ⟨m, f, hm, hl⟩
        · simp at hq
        · simp at hq
    · simp at hm
    · simp at hm

/-- A concatenation of codes decodes to its symbols and ends at the root (44_decoder.md R156). -/
theorem Parses.decodeFrom {N : List NodeRec} {root f l r : Nat} {E : List Digit} {S : List Symbol}
    (hroot : N[root]? = some (.internal f l r)) (h : Parses N root E S) :
    decodeFrom N root root E = some (S, root) := by
  obtain ⟨ps, rfl, rfl, h⟩ := h
  induction ps with
  | nil => rfl
  | cons q ps ih =>
    rw [List.forall_mem_cons] at h
    have hq : q.1 ≠ [] := fun h0 => by
      obtain ⟨m, g, hm, hl⟩ := h.1
      rw [h0] at hm
      obtain rfl : m = root := by simpa [follow] using hm.symm
      rw [hroot] at hl
      simp at hl
    simp only [List.map_cons, List.flatten_cons]
    rw [decodeFrom_leaf hq h.1, ih h.2]

/-- DECODE's loop on any digits: some codes are read whole, and the rest ends at an internal node. -/
theorem TreeValid.decodeFrom {N : List NodeRec} {root : Root} (h : TreeValid N root) {f l r : Nat}
    (hroot : N[root.idx]? = some (.internal f l r)) (E : List Digit) {n g a b : Nat} {u : List Digit}
    (hu : follow N root.idx u = some n) (hn : N[n]? = some (.internal g a b)) :
    ∃ (ps : List (List Digit × Symbol)) (tail : List Digit) (p g' a' b' : Nat),
      u ++ E = (ps.map Prod.fst).flatten ++ tail ∧ (∀ q ∈ ps, LeadsToLeaf N root.idx q.1 q.2) ∧
      follow N root.idx tail = some p ∧ N[p]? = some (.internal g' a' b') ∧
      decodeFrom N root.idx n E = some (ps.map Prod.snd, p) := by
  induction E generalizing n g a b u with
  | nil => exact ⟨[], u, n, g, a, b, by simp, by simp, hu, hn, rfl⟩
  | cons d E ih =>
    have hi := h.internal hn
    have hnlt := (List.getElem?_eq_some_iff.1 hn).1
    have hch : childOn N n d = some (if d then b else a) := by simp [childOn, hn]
    have hclt : (if d then b else a) < N.length := by split <;> omega
    have hu' : follow N root.idx (u ++ [d]) = some (if d then b else a) :=
      follow_concat.2 ⟨n, g, a, b, hu, hn, rfl⟩
    rcases h.node_cases hclt with ⟨s, f', h1, -⟩ | ⟨f', l', r', h1, -⟩
    · obtain ⟨ps, tail, p, g', a', b', e1, e2, e3, e4, e5⟩ := ih (u := []) rfl hroot
      refine ⟨(u ++ [d], s) :: ps, tail, p, g', a', b', ?_, ?_, e3, e4, ?_⟩
      · simp only [List.nil_append] at e1
        simp [e1]
      · rw [List.forall_mem_cons]
        exact ⟨⟨_, f', hu', h1⟩, e2⟩
      · simp [Machine.decodeFrom, hch, h1, e5]
    · obtain ⟨ps, tail, p, g', a', b', e1, e2, e3, e4, e5⟩ := ih hu' h1
      refine ⟨ps, tail, p, g', a', b', by simpa using e1, e2, e3, e4, ?_⟩
      simp [Machine.decodeFrom, hch, h1, e5]

/-- DECODE's loop from an internal root always answers, and ends at the root exactly when the digits are
a concatenation of codes (44_decoder.md R154 (a), R155). -/
theorem TreeValid.decodeFrom_root {N : List NodeRec} {root : Root} (h : TreeValid N root) {f l r : Nat}
    (hroot : N[root.idx]? = some (.internal f l r)) (E : List Digit) :
    ∃ D p, Machine.decodeFrom N root.idx root.idx E = some (D, p) ∧
      (p = root.idx ↔ ∃ S, Parses N root.idx E S) := by
  obtain ⟨ps, tail, p, g, a, b, e1, e2, e3, e4, e5⟩ := h.decodeFrom hroot E (u := []) rfl hroot
  refine ⟨_, p, e5, fun hp => ?_, fun ⟨S, hS⟩ => ?_⟩
  · have := h.follow_lt e3
    obtain rfl : tail = [] := List.length_eq_zero_iff.1 (by omega)
    exact ⟨_, ps, by simpa using e1, rfl, e2⟩
  · have := hS.decodeFrom hroot
    rw [e5] at this
    simp only [Option.some.injEq, Prod.mk.injEq] at this
    exact this.2

/-- The symbols a digit sequence parses to are determined by it. -/
theorem Parses.unique {N : List NodeRec} {root f l r : Nat} {E : List Digit} {S S' : List Symbol}
    (hroot : N[root]? = some (.internal f l r)) (h : Parses N root E S) (h' : Parses N root E S') :
    S = S' := by
  have := (h.decodeFrom hroot).symm.trans (h'.decodeFrom hroot)
  simpa using this

/-- Codes one after the other are a parse. -/
theorem Parses.of_codes {N : List NodeRec} {root : Nat} {S : List Symbol} {code : Symbol → List Digit}
    (h : ∀ x ∈ S, LeadsToLeaf N root (code x) x) : Parses N root (S.flatMap code) S := by
  refine ⟨S.map fun x => (code x, x), ?_, by simp [Function.comp_def], ?_⟩
  · rw [List.map_map, List.flatMap_def]; rfl
  · intro q hq
    obtain ⟨x, hx, rfl⟩ := List.mem_map.1 hq
    exact h x hx

/-- DECODE's loop emits symbols of leaves only. -/
theorem decodeFrom_symbols {N : List NodeRec} {root n p : Nat} {E : List Digit} {D : List Symbol}
    (h : decodeFrom N root n E = some (D, p)) {a : Symbol} (ha : a ∈ D) :
    ∃ m f : Nat, N[m]? = some (.leaf a f) := by
  induction E generalizing n D p with
  | nil => cases h; simp at ha
  | cons d E ih =>
    simp only [decodeFrom] at h
    split at h
    · cases h
    · rename_i q hq
      split at h
      · cases h
      · rename_i s f hs
        split at h
        · cases h
        · rename_i D' p' hd
          cases h
          rcases List.mem_cons.1 ha with rfl | ha
          · exact ⟨_, _, hs⟩
          · exact ih hd ha
      · exact ih h ha

/-- DECODE emits symbols of leaves only. -/
theorem decodeStream_symbols {N : List NodeRec} {root : Root} {E : List Digit} {D : List Symbol}
    (h : decodeStream N root E = some (some D)) {a : Symbol} (ha : a ∈ D) :
    ∃ m f : Nat, N[m]? = some (.leaf a f) := by
  unfold decodeStream at h
  split at h
  · split at h
    · cases h
    · rename_i s f hs
      split at h <;> cases h
      obtain rfl := (List.mem_replicate.1 ha).2
      exact ⟨_, _, hs⟩
    · split at h
      · cases h
      · rename_i D' p hd
        split at h <;> cases h
        exact decodeFrom_symbols hd ha
  · split at h <;> cases h
    simp at ha

end Sys2Proof.Machine
end

