-- ==== Sys2Proof/Laws/Encode.lean ====
section
/-! SUPPORT. What ENCODE's lookup and loop give (43_encoder.md R140, R141, R143, R144). -/

namespace Sys2Proof.Machine

/-- The lookup answers an entry of the table. -/
theorem lookupCode_mem {T : List CtEntry} {s : Symbol} {c : List Digit} (h : lookupCode T s = some c) :
    (⟨s, c⟩ : CtEntry) ∈ T := by
  induction T with
  | nil => simp [lookupCode] at h
  | cons e T ih =>
    unfold lookupCode at h
    split at h
    · rename_i he
      simp only [Option.some.injEq] at h
      subst he h
      exact List.mem_cons_self
    · exact List.mem_cons_of_mem _ (ih h)

/-- A symbol has no code exactly when no entry has it. -/
theorem lookupCode_none {T : List CtEntry} {s : Symbol} :
    lookupCode T s = none ↔ ∀ e ∈ T, e.sym ≠ s := by
  induction T with
  | nil => simp [lookupCode]
  | cons e T ih =>
    unfold lookupCode
    split <;> simp_all

/-- With distinct symbols the one entry is found (43_encoder.md R143). -/
theorem lookupCode_of_mem {T : List CtEntry} (hT : (T.map CtEntry.sym).Nodup) {s : Symbol}
    {c : List Digit} (h : (⟨s, c⟩ : CtEntry) ∈ T) : lookupCode T s = some c := by
  induction T with
  | nil => simp at h
  | cons e T ih =>
    simp only [List.map_cons, List.nodup_cons] at hT
    unfold lookupCode
    rcases List.mem_cons.1 h with rfl | h
    · simp
    · have : e.sym ≠ s := fun he => hT.1 (he ▸ List.mem_map_of_mem h)
      rw [if_neg this, ih hT.2 h]

/-- ENCODE's loop when every symbol has a code. -/
theorem encodeSymbols_eq_some {T : List CtEntry} {S : List Symbol} {code : Symbol → List Digit}
    (h : ∀ x ∈ S, lookupCode T x = some (code x)) :
    encodeSymbols T S = some (S.flatMap code) := by
  induction S with
  | nil => rfl
  | cons s S ih =>
    rw [List.forall_mem_cons] at h
    simp [encodeSymbols, h.1, ih h.2]

/-- ENCODE's loop fails exactly when some symbol has no code, at whatever index. -/
theorem encodeSymbols_none {T : List CtEntry} {S : List Symbol} :
    encodeSymbols T S = none ↔ ∃ x ∈ S, lookupCode T x = none := by
  induction S with
  | nil => simp [encodeSymbols]
  | cons s S ih =>
    unfold encodeSymbols
    split
    · rename_i h; simp [h]
    · rename_i c h
      split
      · rename_i h'; simp [h, ih.1 h']
      · rename_i h'
        have : ¬ ∃ x ∈ S, lookupCode T x = none := fun hx => by simp [ih.2 hx] at h'
        simpa [h] using this

/-- The length of ENCODE's result is bounded by the longest code. -/
theorem flatMap_length_le {S : List Symbol} {code : Symbol → List Digit} {n : Nat}
    (h : ∀ x ∈ S, (code x).length ≤ n) : (S.flatMap code).length ≤ S.length * n := by
  induction S with
  | nil => simp
  | cons s S ih =>
    rw [List.forall_mem_cons] at h
    have := ih h.2
    simp only [List.flatMap_cons, List.length_append, List.length_cons, Nat.add_mul, one_mul]
    omega

end Sys2Proof.Machine
end

