-- ==== Sys2Proof/Laws/Memory.lean ====
section
/-! SUPPORT. Every memory operation keeps Memory.wf, and reset has it (20_memory.md R62). -/

namespace Sys2Proof.Machine

theorem Memory.wf_iff {p : Params} {m : Memory} :
    m.wf p = true ↔ ∀ b, contentsFit p (m.contents b) = true := by
  constructor
  · intro h b
    simp only [Memory.wf, Bool.and_eq_true] at h
    cases b <;> tauto
  · intro h
    simp only [Memory.wf, Bool.and_eq_true]
    exact ⟨⟨⟨⟨⟨h _, h _⟩, h _⟩, h _⟩, h _⟩, h _⟩

theorem contentsFit_empty (p : Params) (b : Buffer) : contentsFit p (emptyContents b) = true := by
  cases b <;>
    simp [contentsFit, emptyContents, contentsBuffer, contentsLength, elementsFit, fits_zero]

/-- The buffers of the reset state are well formed. -/
theorem Memory.wf_empty (p : Params) : Memory.empty.wf p = true :=
  Memory.wf_iff.2 fun b => by
    have := contentsFit_empty p b
    cases b <;> exact this

/-- Storing a content that fits keeps the buffers well formed. -/
theorem Memory.wf_store {p : Params} {m : Memory} {c : Contents} (hm : m.wf p = true)
    (hc : contentsFit p c = true) : (m.store c).wf p = true := by
  rw [Memory.wf_iff] at *
  intro b
  have hb := hm b
  cases c <;> cases b <;> first | exact hc | exact hb

/-- Emptying a destination keeps the buffers well formed. -/
theorem Memory.wf_emptyDestination {p : Params} {s : State} (d : Buffer) (hm : s.mem.wf p = true) :
    (s.emptyDestination d).mem.wf p = true := by
  have := Memory.wf_store hm (contentsFit_empty p d)
  cases d <;> exact this

/-- `raise` keeps the buffers well formed. -/
theorem Memory.wf_raise {p : Params} {s : State} (e : Status) (d : Buffer) (hm : s.mem.wf p = true) :
    (raise e d s).mem.wf p = true := Memory.wf_emptyDestination d hm

/-- Ending a command keeps the buffers well formed when its write does. -/
theorem Memory.wf_complete {p : Params} {s : State} {st : Status} {d : Buffer} {write : State → State}
    (hm : s.mem.wf p = true) (hw : st = .ok → (write s).mem.wf p = true) :
    (complete st d write s).mem.wf p = true := by
  obtain ⟨h, he⟩ | ⟨h, he⟩ := complete_cases st d write s
  · rw [he]; exact hw h
  · rw [he]; exact Memory.wf_raise st d hm

/-- HostPut keeps the buffers well formed. -/
theorem Memory.wf_hostPut {c : Contents} {s t : State} (h : hostPut c s = .next t)
    (hm : s.mem.wf s.params = true) : t.mem.wf t.params = true := by
  rcases hostPut_cases c s with ⟨-, h2, h3, h4⟩ | ⟨r, hr⟩
  · rw [h4] at h
    obtain rfl := Host.Outcome.next.inj h
    exact Memory.wf_store hm (by simp [contentsFit, h2, h3])
  · rw [hr] at h; simp at h

end Sys2Proof.Machine
end

