-- ==== Sys2Proof/Laws/Exec.lean ====
section
/-! SUPPORT. Each command's status, and everything its meaning can do: it ends OK with its result written, or
with an error and its destination emptied (60_exceptions.md R206, R207). -/

namespace Sys2Proof.Machine

/-! ## Statuses -/

theorem withCapacity_ok {st : Status} {b : Bool} : withCapacity st b = .ok ↔ st = .ok ∧ b = true := by
  unfold withCapacity
  cases b <;> by_cases h : st = .ok <;> simp [h]

theorem countStatus_cases (p : Params) (T : List FtEntry) :
    (tableFits p T = true ∧ countStatus p T = .ok) ∨
      (tableFits p T = false ∧ countStatus p T = .capacity) := by
  cases h : tableFits p T <;> simp [countStatus, withCapacity, h]

theorem tableFits_occurrenceTable {p : Params} {S : List Symbol} :
    tableFits p (occurrenceTable S) = true ↔
      fits p.kMax S.eraseDups.length = true ∧ ∀ a ∈ S, freqFits p (S.count a) = true := by
  simp only [tableFits, Bool.and_eq_true, List.all_eq_true]
  refine and_congr (by simp [occurrenceTable]) ⟨fun h a ha => ?_, fun h e he => ?_⟩
  · exact h ⟨a, S.count a⟩ (mem_occurrenceTable.2 ⟨ha, rfl⟩)
  · obtain ⟨h1, h2⟩ := mem_occurrenceTable.1 he
    rw [h2]; exact h _ h1

theorem hasZeroCount_iff {F : List FtEntry} : hasZeroCount F = true ↔ ∃ e ∈ F, e.count = 0 := by
  simp [hasZeroCount]

theorem hasRepeatedSymbol_iff {F : List FtEntry} :
    hasRepeatedSymbol F = true ↔ ¬ (F.map FtEntry.sym).Nodup := by
  induction F with
  | nil => simp [hasRepeatedSymbol]
  | cons e F ih =>
    rw [List.map_cons, List.nodup_cons, hasRepeatedSymbol, Bool.or_eq_true, ih]
    simp only [List.any_eq_true, beq_iff_eq, List.mem_map]
    rw [not_and_or, not_not]

/-- BUILD's input check fails exactly on the tables that are not as 41_tree_builder.md R110 wants. -/
theorem buildable_iff {F : List FtEntry} :
    Buildable F ↔ (F.isEmpty || hasZeroCount F || hasRepeatedSymbol F) = false := by
  have h0 : hasZeroCount F = false ↔ ∀ e ∈ F, 1 ≤ e.count := by
    rw [← Bool.not_eq_true, hasZeroCount_iff]
    simp only [not_exists, not_and, Nat.one_le_iff_ne_zero]
  have h1 : hasRepeatedSymbol F = false ↔ (F.map FtEntry.sym).Nodup := by
    rw [← Bool.not_eq_true, hasRepeatedSymbol_iff, not_not]
  rw [Bool.or_eq_false_iff, Bool.or_eq_false_iff, h0, h1, and_assoc, List.isEmpty_eq_false_iff]

theorem buildStatus_cases (p : Params) (F : List FtEntry) :
    (¬ Buildable F ∧ buildStatus p F = .invalidInput) ∨
      (Buildable F ∧ freqFits p (sumCounts F) = true ∧ buildStatus p F = .ok) ∨
      (Buildable F ∧ freqFits p (sumCounts F) = false ∧ buildStatus p F = .capacity) := by
  by_cases hb : Buildable F
  · have := buildable_iff.1 hb
    cases hf : freqFits p (sumCounts F)
    · exact .inr (.inr ⟨hb, rfl, by simp [buildStatus, withCapacity, this, hf]⟩)
    · exact .inr (.inl ⟨hb, rfl, by simp [buildStatus, withCapacity, this, hf]⟩)
  · have : (F.isEmpty || hasZeroCount F || hasRepeatedSymbol F) = true := by
      rw [← Bool.not_eq_false]; exact mt buildable_iff.2 hb
    exact .inl ⟨hb, by simp [buildStatus, this]⟩

theorem encodeStatus_cases (p : Params) (E : Option (List Digit)) :
    (E = none ∧ encodeStatus p E = .lookupError) ∨
      (∃ D, E = some D ∧ fits p.mMax D.length = true ∧ encodeStatus p E = .ok) ∨
      (∃ D, E = some D ∧ fits p.mMax D.length = false ∧ encodeStatus p E = .capacity) := by
  cases E with
  | none => exact .inl ⟨rfl, rfl⟩
  | some D => cases h : fits p.mMax D.length <;> simp [encodeStatus, withCapacity, h]

theorem decodeStatus_cases (p : Params) (D : Option (List Symbol)) :
    (D = none ∧ decodeStatus p D = .malformedStream) ∨
      (∃ S, D = some S ∧ fits p.oMax S.length = true ∧ decodeStatus p D = .ok) ∨
      (∃ S, D = some S ∧ fits p.oMax S.length = false ∧ decodeStatus p D = .capacity) := by
  cases D with
  | none => exact .inl ⟨rfl, rfl⟩
  | some S => cases h : fits p.oMax S.length <;> simp [decodeStatus, withCapacity, h]

/-! ## Meanings -/

/-- COUNT ends OK with the occurrence table in FT, or with Capacity and FT empty. -/
theorem execCount_cases (s : State) :
    (tableFits s.params (occurrenceTable s.mem.sym) = true ∧
      execCount s =
        .next { s with status := .ok, mem := { s.mem with ft := occurrenceTable s.mem.sym } }) ∨
    (tableFits s.params (occurrenceTable s.mem.sym) = false ∧
      execCount s = .next { s with status := .capacity, mem := { s.mem with ft := [] } }) := by
  rw [execCount_eq]
  rcases countStatus_cases s.params (occurrenceTable s.mem.sym) with ⟨h, hs⟩ | ⟨h, hs⟩
  · exact .inl ⟨h, by rw [hs]; rfl⟩
  · exact .inr ⟨h, by rw [hs]; rfl⟩

/-- BUILD ends OK with the tree in NODE and ROOT, or with an error and both emptied. -/
theorem execBuild_cases (s : State) :
    (Buildable s.mem.ft ∧ freqFits s.params (sumCounts s.mem.ft) = true ∧
      execBuild s = .next { s with
        status := .ok, root := (buildTree s.mem.ft).2
        mem := { s.mem with node := (buildTree s.mem.ft).1 } }) ∨
    (¬ Buildable s.mem.ft ∧ execBuild s = .next { s with
      status := .invalidInput, root := .null, mem := { s.mem with node := [] } }) ∨
    (Buildable s.mem.ft ∧ freqFits s.params (sumCounts s.mem.ft) = false ∧
      execBuild s =
        .next { s with status := .capacity, root := .null, mem := { s.mem with node := [] } }) := by
  rcases buildStatus_cases s.params s.mem.ft with ⟨h, hs⟩ | ⟨h, h', hs⟩ | ⟨h, h', hs⟩
  · exact .inr (.inl ⟨h, by simp only [execBuild, hs]; rfl⟩)
  · exact .inl ⟨h, h', by simp only [execBuild, hs]; rfl⟩
  · exact .inr (.inr ⟨h, h', by simp only [execBuild, hs]; rfl⟩)

/-- TABLE ends OK with the table in CT, or stops on a tree that 10_state.md R38 excludes. -/
theorem execTable_cases (s : State) :
    (∃ T, codeTable s.mem.node s.root = some T ∧
      execTable s = .next { s with status := .ok, mem := { s.mem with ct := T } }) ∨
    (codeTable s.mem.node s.root = none ∧ execTable s = .fault .corruptTree) := by
  unfold execTable
  cases h : codeTable s.mem.node s.root with
  | none => exact .inr ⟨rfl, rfl⟩
  | some T => exact .inl ⟨T, rfl, rfl⟩

/-- ENCODE ends OK with the digits in BITS, or with an error and BITS empty. -/
theorem execEncode_cases (s : State) :
    (∃ E, encodeSymbols s.mem.ct s.mem.sym = some E ∧ fits s.params.mMax E.length = true ∧
      execEncode s = .next { s with status := .ok, mem := { s.mem with bits := E } }) ∨
    (encodeSymbols s.mem.ct s.mem.sym = none ∧
      execEncode s = .next { s with status := .lookupError, mem := { s.mem with bits := [] } }) ∨
    (∃ E, encodeSymbols s.mem.ct s.mem.sym = some E ∧ fits s.params.mMax E.length = false ∧
      execEncode s = .next { s with status := .capacity, mem := { s.mem with bits := [] } }) := by
  rcases encodeStatus_cases s.params (encodeSymbols s.mem.ct s.mem.sym) with
    ⟨h, hs⟩ | ⟨E, h, h', hs⟩ | ⟨E, h, h', hs⟩
  · exact .inr (.inl ⟨h, by simp only [execEncode, hs]; rfl⟩)
  · exact .inl ⟨E, h, h', by simp only [execEncode, hs]; rw [h]; rfl⟩
  · exact .inr (.inr ⟨E, h, h', by simp only [execEncode, hs]; rfl⟩)

/-- DECODE ends OK with the symbols in OUT, or with an error and OUT empty, or stops on a tree that
10_state.md R38 excludes. -/
theorem execDecode_cases (s : State) :
    (∃ D, decodeStream s.mem.node s.root s.mem.bits = some (some D) ∧
      fits s.params.oMax D.length = true ∧
      execDecode s = .next { s with status := .ok, mem := { s.mem with out := D } }) ∨
    (decodeStream s.mem.node s.root s.mem.bits = some none ∧
      execDecode s = .next { s with status := .malformedStream, mem := { s.mem with out := [] } }) ∨
    (∃ D, decodeStream s.mem.node s.root s.mem.bits = some (some D) ∧
      fits s.params.oMax D.length = false ∧
      execDecode s = .next { s with status := .capacity, mem := { s.mem with out := [] } }) ∨
    (decodeStream s.mem.node s.root s.mem.bits = none ∧ execDecode s = .fault .corruptTree) := by
  unfold execDecode
  cases hd : decodeStream s.mem.node s.root s.mem.bits with
  | none => exact .inr (.inr (.inr ⟨rfl, rfl⟩))
  | some D =>
    rcases decodeStatus_cases s.params D with ⟨rfl, hs⟩ | ⟨S, rfl, h', hs⟩ | ⟨S, rfl, h', hs⟩
    · exact .inr (.inl ⟨rfl, by simp only [hs]; rfl⟩)
    · exact .inl ⟨S, rfl, h', by simp only [hs]; rfl⟩
    · exact .inr (.inr (.inl ⟨S, rfl, h', by simp only [hs]; rfl⟩))

/-- DECODE's three cases of the root (44_decoder.md R151, R152, R153). -/
theorem decodeStream_cases {N : List NodeRec} {root : Root} (h : TreeWf N root) (E : List Digit) :
    (root.valid = false ∧ decodeStream N root E = some (if E = [] then some [] else none)) ∨
    (∃ a f, TreeValid N root ∧ leafCount N = 1 ∧ N[root.idx]? = some (.leaf a f) ∧
      decodeStream N root E = some (if E = [] then some (List.replicate f a) else none)) ∨
    (∃ f l r, TreeValid N root ∧ 2 ≤ leafCount N ∧ N[root.idx]? = some (.internal f l r) ∧
      ((∃ S, Parses N root.idx E S ∧ decodeStream N root E = some (some S)) ∨
        ((∀ S, ¬ Parses N root.idx E S) ∧ decodeStream N root E = some none))) := by
  rcases h with ⟨rfl, rfl⟩ | h
  · refine .inl ⟨rfl, ?_⟩
    cases E <;> rfl
  · rcases h.root_cases with ⟨h1, h2, a, f, h3⟩ | ⟨h1, f, l, r, h3⟩
    · refine .inr (.inl ⟨a, f, h, h1, h3, ?_⟩)
      cases E <;> simp [decodeStream, h.1, h3]
    · refine .inr (.inr ⟨f, l, r, h, h1, h3, ?_⟩)
      obtain ⟨D, p, e1, e2⟩ := h.decodeFrom_root h3 E
      by_cases hp : p = root.idx
      · obtain ⟨S, hS⟩ := e2.1 hp
        have := hS.decodeFrom h3
        refine .inl ⟨S, hS, ?_⟩
        simp [decodeStream, h.1, h3, this]
      · refine .inr ⟨fun S hS => hp (e2.2 ⟨S, hS⟩), ?_⟩
        simp [decodeStream, h.1, h3, e1, hp]

/-! ## The commands on the trees of 10_state.md R38 -/

/-- TABLE on a valid tree: the root's paths. -/
theorem execTable_of_valid {s : State} (h : TreeValid s.mem.node s.root) :
    ∃ T, execTable s = .next { s with status := .ok, mem := { s.mem with ct := T } } ∧
      WalkOk s.mem.node s.root.idx [] T := by
  obtain ⟨T, h1, h2⟩ := h.codeTable
  rcases execTable_cases s with ⟨T', h3, e⟩ | ⟨h3, -⟩
  · rw [h1] at h3
    obtain rfl := Option.some.inj h3
    exact ⟨T, e, h2⟩
  · rw [h1] at h3; cases h3

/-- TABLE with the null root (42_code_table_generator.md R133). -/
theorem execTable_of_null {s : State} (h : s.root.valid = false) :
    execTable s = .next { s with status := .ok, mem := { s.mem with ct := [] } } := by
  simp [execTable, codeTable, h, State.store, State.setStatus]

/-- DECODE when the digits give the symbols `D`. -/
theorem execDecode_of_symbols {s : State} {D : List Symbol}
    (h : decodeStream s.mem.node s.root s.mem.bits = some (some D)) :
    execDecode s = .next (if fits s.params.oMax D.length then
      { s with status := .ok, mem := { s.mem with out := D } }
      else { s with status := .capacity, mem := { s.mem with out := [] } }) := by
  rcases execDecode_cases s with ⟨E, h', k, e⟩ | ⟨h', -⟩ | ⟨E, h', k, e⟩ | ⟨h', -⟩ <;>
    rw [h] at h' <;> cases h'
  · rw [e, if_pos k]
  · rw [e, k]; rfl

/-- DECODE of a malformed stream. -/
theorem execDecode_of_malformed {s : State}
    (h : decodeStream s.mem.node s.root s.mem.bits = some none) :
    execDecode s = .next { s with status := .malformedStream, mem := { s.mem with out := [] } } := by
  rcases execDecode_cases s with ⟨E, h', -⟩ | ⟨-, e⟩ | ⟨E, h', -⟩ | ⟨h', -⟩
  · rw [h] at h'; cases h'
  · exact e
  · rw [h] at h'; cases h'
  · rw [h] at h'; cases h'

/-! ## Decoding a command word -/

/-- A word decodes to a command exactly when it is that command's word (30_encoding.md R81). -/
theorem decode_ok_iff {w : Byte} {i : Instr} : decode w = .ok i ↔ w = encode i := by
  revert w
  cases i <;> decide

/-- The host's write of a command's word runs that command (45_system.md R166). -/
theorem step_command (s : State) (i : Instr) : step (s.load [command i]) = exec i s := by
  rw [step, fetch_load]
  simp only [command, decode_ok_iff.2 rfl]

end Sys2Proof.Machine
end

