-- ==== Sys2Proof/Laws/Layout.lean ====
section
/-! SUPPORT. The small facts of the record layouts (30_encoding.md R89). -/

namespace Sys2Proof.Machine

/-- Digit `i` of a code is bit `i` of its `code` field; "Bits `len` and above are 0". -/
theorem codeValue_testBit (c : List Digit) (i : Nat) :
    (codeValue c).testBit i = c.getD i false := by
  induction c generalizing i with
  | nil => simp [codeValue]
  | cons d c ih =>
    cases i with
    | zero => simp only [codeValue, Nat.testBit_zero]; cases d <;> simp
    | succ i =>
      have : codeValue (d :: c) / 2 = codeValue c := by
        simp only [codeValue]; cases d <;> simp; omega
      rw [Nat.testBit_succ, this, ih]
      simp

/-- `bitLength n` is the least width that holds `n`. -/
theorem bitLength_least (n : Nat) : n < 2 ^ bitLength n ∧ ∀ w, n < 2 ^ w → bitLength n ≤ w := by
  unfold bitLength
  split
  · subst_vars; simp
  · rename_i h
    refine ⟨Nat.lt_log2_self, fun w hw => ?_⟩
    have := (Nat.log2_lt h).2 hw
    omega

end Sys2Proof.Machine
end

