-- ==== Sys2Proof/Laws/Optimal.lean ====
section
/-! SUPPORT. Towards optimality (41_tree_builder.md R120): the Kraft sum of a prefix-free code, the exchange
step, the lower bound that BUILD's merges give, and the cost of BUILD's own tree. -/

namespace Sys2Proof.Machine

/-! ## The Kraft sum -/

/-- The Kraft sum of some code lengths. -/
def kraft (ls : List Nat) : ℚ := (ls.map fun l => (1 / 2 : ℚ) ^ l).sum

theorem kraft_cons (l : Nat) (ls : List Nat) : kraft (l :: ls) = (1 / 2 : ℚ) ^ l + kraft ls := by
  simp [kraft]

theorem kraft_perm {a b : List Nat} (h : a.Perm b) : kraft a = kraft b :=
  (h.map _).sum_eq

/-- The tails of the codes that begin with digit `d`. -/
def tailsOf (d : Digit) : List (List Digit) → List (List Digit)
  | [] => []
  | [] :: C => tailsOf d C
  | (x :: c) :: C => if x = d then c :: tailsOf d C else tailsOf d C

theorem mem_tailsOf {d : Digit} {C : List (List Digit)} {c : List Digit} :
    c ∈ tailsOf d C ↔ (d :: c) ∈ C := by
  induction C with
  | nil => simp [tailsOf]
  | cons x C ih =>
    cases x with
    | nil => simp [tailsOf, ih]
    | cons y x =>
      unfold tailsOf
      split
      · rename_i h; subst h; simp [ih]
      · rename_i h; simp [ih, Ne.symm h]

theorem tailsOf_pairwise {d : Digit} {C : List (List Digit)} (h : C.Pairwise CodesApart) :
    (tailsOf d C).Pairwise CodesApart := by
  induction C with
  | nil => simp [tailsOf]
  | cons x C ih =>
    rw [List.pairwise_cons] at h
    cases x with
    | nil => exact ih h.2
    | cons y x =>
      unfold tailsOf
      split
      · rename_i hy
        subst hy
        refine List.pairwise_cons.2 ⟨fun c hc => ?_, ih h.2⟩
        have := h.1 _ (mem_tailsOf.1 hc)
        simpa [CodesApart, List.cons_prefix_cons] using this
      · exact ih h.2

/-- The Kraft sum splits by first digit. -/
theorem kraft_tails {C : List (List Digit)} (h : [] ∉ C) :
    kraft (C.map List.length) =
      1 / 2 * kraft ((tailsOf false C).map List.length) +
        1 / 2 * kraft ((tailsOf true C).map List.length) := by
  induction C with
  | nil => simp [tailsOf, kraft]
  | cons x C ih =>
    rw [List.mem_cons, not_or] at h
    cases x with
    | nil => exact absurd rfl h.1
    | cons y x =>
      rw [List.map_cons, kraft_cons, ih h.2]
      cases y <;> simp [tailsOf, kraft_cons, pow_succ] <;> ring

/-- The Kraft inequality of a prefix-free code. -/
theorem kraft_le_one (m : Nat) {C : List (List Digit)} (h : C.Pairwise CodesApart)
    (hm : ∀ c ∈ C, c.length ≤ m) : kraft (C.map List.length) ≤ 1 := by
  by_cases hn : [] ∈ C
  · obtain ⟨A, B, rfl⟩ := List.append_of_mem hn
    rw [List.pairwise_append, List.pairwise_cons] at h
    obtain rfl : A = [] := List.eq_nil_iff_forall_not_mem.2 fun a ha =>
      (h.2.2 a ha [] (by simp)).2 List.nil_prefix
    obtain rfl : B = [] := List.eq_nil_iff_forall_not_mem.2 fun b hb =>
      (h.2.1.1 b hb).1 List.nil_prefix
    simp [kraft]
  · cases m with
    | zero =>
      obtain rfl : C = [] := List.eq_nil_iff_forall_not_mem.2 fun c hc => by
        have := List.length_eq_zero_iff.1 (Nat.le_zero.1 (hm c hc))
        exact hn (this ▸ hc)
      simp [kraft]
    | succ m =>
      have key (d : Digit) : kraft ((tailsOf d C).map List.length) ≤ 1 :=
        kraft_le_one m (tailsOf_pairwise h) fun c hc => by simpa using hm _ (mem_tailsOf.1 hc)
      rw [kraft_tails hn]
      linarith [key false, key true]

/-! ## Lengths given to weights -/

/-- The cost of lengths given to weights. -/
def cost (P : List (Nat × Nat)) : Nat := (P.map fun x => x.1 * x.2).sum

theorem cost_cons (x : Nat × Nat) (P : List (Nat × Nat)) : cost (x :: P) = x.1 * x.2 + cost P := by
  simp [cost]

theorem cost_perm {P Q : List (Nat × Nat)} (h : P.Perm Q) : cost P = cost Q := (h.map _).sum_eq

/-- Exchange: the least weight may take the greatest length. -/
theorem exchange {a : Nat} {ws : List Nat} {P : List (Nat × Nat)} (hp : (P.map Prod.fst).Perm (a :: ws))
    (ha : ∀ w ∈ ws, a ≤ w) :
    ∃ L Q, (Q.map Prod.fst).Perm ws ∧ (P.map Prod.snd).Perm (L :: Q.map Prod.snd) ∧
      (∀ x ∈ Q, x.2 ≤ L) ∧ a * L + cost Q ≤ cost P := by
  have hne : P ≠ [] := by rintro rfl; simpa using hp.length_eq
  -- a pair of the greatest length
  obtain ⟨⟨w, L⟩, hw, hL⟩ : ∃ x ∈ P, ∀ y ∈ P, y.2 ≤ x.2 := by
    have : (P.map Prod.snd).max? ≠ none := by simpa using hne
    obtain ⟨L, hL⟩ := Option.ne_none_iff_exists'.1 this
    rw [List.max?_eq_some_iff] at hL
    obtain ⟨x, hx, rfl⟩ := List.mem_map.1 hL.1
    exact ⟨x, hx, fun y hy => hL.2 _ (List.mem_map_of_mem hy)⟩
  have hP := List.perm_cons_erase hw
  generalize P.erase (w, L) = R at hP
  have hwt : (w :: R.map Prod.fst).Perm (a :: ws) := (hP.map Prod.fst).symm.trans hp
  have hle : ∀ x ∈ R, x.2 ≤ L := fun x hx => hL x (hP.mem_iff.2 (List.mem_cons_of_mem _ hx))
  rw [cost_perm hP, cost_cons]
  by_cases hwa : w = a
  · subst hwa
    exact ⟨L, R, hwt.cons_inv, hP.map Prod.snd, hle, le_rfl⟩
  · have ham : a ∈ R.map Prod.fst := by
      have := hwt.mem_iff.2 (List.mem_cons_self (a := a) (l := ws))
      exact (List.mem_cons.1 this).resolve_left (Ne.symm hwa)
    obtain ⟨⟨a', x⟩, hx, rfl⟩ := List.mem_map.1 ham
    have hR := List.perm_cons_erase hx
    generalize R.erase (a', x) = R' at hR
    have hxL := hle _ hx
    have haw : a' ≤ w := by
      have := hwt.mem_iff.1 (List.mem_cons_self (a := w))
      exact ha w ((List.mem_cons.1 this).resolve_left hwa)
    refine ⟨L, (w, x) :: R', ?_, ?_, ?_, ?_⟩
    · have : (a' :: w :: R'.map Prod.fst).Perm (a' :: ws) :=
        (List.Perm.swap w a' _).trans (((hR.map Prod.fst).cons w).symm.trans hwt)
      exact this.cons_inv
    · exact (hP.map Prod.snd).trans ((hR.map Prod.snd).cons L)
    · intro y hy
      rcases List.mem_cons.1 hy with rfl | hy
      · exact hxL
      · exact hle y (hR.mem_iff.2 (List.mem_cons_of_mem _ hy))
    · rw [cost_cons, cost_perm hR, cost_cons]
      simp only at hxL ⊢
      nlinarith [Nat.mul_le_mul haw hxL, Nat.mul_le_mul_left w hxL, Nat.mul_le_mul_right L haw]

/-- `c` is a lower bound of the cost of lengths given to the weights `ws`. -/
def LowerBound (ws : List Nat) (c : Nat) : Prop :=
  ∀ P : List (Nat × Nat), (P.map Prod.fst).Perm ws → kraft (P.map Prod.snd) ≤ 1 → c ≤ cost P

/-- The Kraft sum of lengths up to `L` is a multiple of `(1/2)^L`. -/
theorem kraft_natural {L : Nat} {ls : List Nat} (h : ∀ l ∈ ls, l ≤ L) :
    ∃ k : Nat, kraft ls = k * (1 / 2 : ℚ) ^ L := by
  induction ls with
  | nil => exact ⟨0, by simp [kraft]⟩
  | cons l ls ih =>
    rw [List.forall_mem_cons] at h
    obtain ⟨k, hk⟩ := ih h.2
    refine ⟨2 ^ (L - l) + k, ?_⟩
    have : (1 / 2 : ℚ) ^ l = 2 ^ (L - l) * (1 / 2) ^ L := by
      obtain ⟨d, rfl⟩ := Nat.exists_eq_add_of_le h.1
      rw [Nat.add_sub_cancel_left, pow_add, mul_comm, mul_assoc, ← mul_pow]; norm_num
    rw [kraft_cons, hk, this]; push_cast; ring

/-- One merge of the two least weights (Huffman's step). -/
theorem LowerBound.merge {a b : Nat} {ws : List Nat} {c : Nat} (hab : a ≤ b) (hb : ∀ w ∈ ws, b ≤ w)
    (h : LowerBound ((a + b) :: ws) c) : LowerBound (a :: b :: ws) (c + (a + b)) := by
  intro P hP hk
  obtain ⟨L, Q, q1, q2, q3, q4⟩ := exchange hP (List.forall_mem_cons.2 ⟨hab, fun w hw => hab.trans (hb w hw)⟩)
  obtain ⟨M, R, r1, r2, r3, r4⟩ := exchange q1 hb
  have hML : M ≤ L := by
    obtain ⟨x, hx, rfl⟩ := List.mem_map.1 (r2.mem_iff.2 (List.mem_cons_self (a := M)))
    exact q3 x hx
  rw [kraft_perm q2, kraft_cons, kraft_perm r2, kraft_cons] at hk
  obtain ⟨k, hkr⟩ := kraft_natural (L := M) (ls := R.map Prod.snd) fun l hl => by
    obtain ⟨x, hx, rfl⟩ := List.mem_map.1 hl
    exact r3 x hx
  have hpos : (0 : ℚ) < (1 / 2) ^ L := by positivity
  have hM : ((k : ℚ) + 1) * (1 / 2) ^ M < 1 := by rw [hkr] at hk; linarith
  have h2 : ((1 / 2 : ℚ)) ^ M * 2 ^ M = 1 := by rw [← mul_pow]; norm_num
  have hp : (0 : ℚ) < 2 ^ M := by positivity
  have hk2 : k + 2 ≤ 2 ^ M := by
    have : ((k : ℚ) + 1) < 2 ^ M := by
      have := mul_lt_mul_of_pos_right hM hp
      rwa [mul_assoc, h2, mul_one, one_mul] at this
    have : k + 1 < 2 ^ M := by exact_mod_cast this
    omega
  obtain ⟨M', rfl⟩ : ∃ M', M = M' + 1 := by
    cases M with
    | zero => simp at hk2
    | succ M' => exact ⟨M', rfl⟩
  have hcost := h ((a + b, M') :: R) (by simpa using r1) (by
    rw [List.map_cons, kraft_cons, hkr]
    simp only
    have e : (1 / 2 : ℚ) ^ M' = 2 * (1 / 2) ^ (M' + 1) := by rw [pow_succ]; ring
    have : ((k : ℚ) + 2) ≤ 2 ^ (M' + 1) := by exact_mod_cast hk2
    have hp' : (0 : ℚ) < (1 / 2) ^ (M' + 1) := by positivity
    have := mul_le_mul_of_nonneg_right this hp'.le
    rw [mul_comm (2 ^ (M' + 1)), h2] at this
    rw [e]; linarith)
  rw [cost_cons] at hcost
  simp only at hcost
  have := Nat.mul_le_mul_left a hML
  nlinarith

theorem LowerBound.perm {a b : List Nat} {c : Nat} (h : a.Perm b) (hb : LowerBound b c) : LowerBound a c :=
  fun P hP hk => hb P (hP.trans h) hk

theorem LowerBound.single (a : Nat) : LowerBound [a] 0 := fun _ _ _ => Nat.zero_le _

/-! ## The merge loop -/

/-- The frequencies BUILD's loop gives to the merged nodes sum to a lower bound of the cost of any code for
the queue. -/
theorem mergeLoop_lowerBound (n : Nat) {N : List NodeRec} {q : List Key} (h : QueueOk N q)
    (hq : q.length = n + 1) :
    ∃ M r, mergeLoop n N q = (N ++ M, [r]) ∧ LowerBound (q.map Key.freq) (M.map nodeFreq).sum := by
  induction n generalizing N q with
  | zero =>
    match q, hq with
    | [r], _ => exact ⟨[], r, by simp [mergeLoop], LowerBound.single _⟩
  | succ n ih =>
    match q, hq with
    | a :: b :: q, hq =>
      have h' := QueueOk.insert (n := .internal (a.freq + b.freq) a.idx b.idx) (cs := [a, b]) h rfl
      obtain ⟨M, r, e1, e2⟩ := ih h' (by simp [pqInsert_length] at hq ⊢; omega)
      refine ⟨.internal (a.freq + b.freq) a.idx b.idx :: M, r, ?_, ?_⟩
      · rw [List.append_cons, ← e1]; rfl
      · have hs := h.sorted
        have le_of {x y : Key} (hxy : keyLess x y = true) : x.freq ≤ y.freq := by
          rw [keyLess_iff] at hxy; omega
        rw [QueueSorted, List.pairwise_cons, List.pairwise_cons] at hs
        simp only [List.map_cons, List.sum_cons, nodeFreq]
        rw [add_comm (a.freq + b.freq)]
        refine LowerBound.merge (le_of (hs.1 b (by simp))) (fun w hw => ?_) ?_
        · obtain ⟨k, hk, rfl⟩ := List.mem_map.1 hw
          exact le_of (hs.2.1 k hk)
        · exact e2.perm ((pqInsert_perm ⟨a.freq + b.freq, N.length⟩ q).map Key.freq).symm

theorem loadLeaves_keys (F : List FtEntry) (N : List NodeRec) (q : List Key) :
    ((loadLeaves F N q).2.map Key.freq).Perm (q.map Key.freq ++ F.map FtEntry.count) := by
  induction F generalizing N q with
  | nil => simp [loadLeaves]
  | cons e F ih =>
    refine (ih _ _).trans ?_
    refine (((pqInsert_perm _ q).map Key.freq).append_right _).trans ?_
    simpa using List.perm_middle.symm

/-- The frequencies of the merged nodes of BUILD's tree sum to a lower bound. -/
theorem buildTree_lowerBound {F : List FtEntry} (hF : F ≠ []) :
    LowerBound (F.map FtEntry.count) (((buildTree F).1.drop F.length).map nodeFreq).sum := by
  have hlen : 0 < F.length := List.length_pos_of_ne_nil hF
  have h0 : QueueOk [] [] := ⟨by simp, by simp, by simp [childIndices]⟩
  obtain ⟨l1, l2, l3, -⟩ := loadLeaves_spec F h0
  obtain ⟨M, r, e1, e2⟩ := mergeLoop_lowerBound (F.length - 1) l2 (by rw [l3, List.length_nil]; omega)
  have hb : (buildTree F).1 = leavesOf F ++ M := by
    simp only [buildTree]
    rw [e1, l1]
    rfl
  rw [hb, List.drop_left' (by simp [leavesOf])]
  exact e2.perm (loadLeaves_keys F [] []).symm

/-! ## The cost of a tree -/

theorem childIndices_sum (N : List NodeRec) (g : Nat → Nat) :
    ((childIndices N).map g).sum = ∑ p ∈ Finset.range N.length,
      match N[p]? with
      | some (.internal _ l r) => g l + g r
      | some (.leaf _ _) => 0
      | none => 0 := by
  induction N using List.reverseRecOn with
  | nil => simp [childIndices]
  | append_singleton N n ih =>
    rw [childIndices_append, List.map_append, List.sum_append, ih, List.length_append,
      List.length_singleton, Finset.sum_range_succ]
    congr 1
    · refine Finset.sum_congr rfl fun p hp => ?_
      rw [List.getElem?_append_left (Finset.mem_range.1 hp)]
    · cases n <;> simp [childIndices]

/-- The weighted depths of the leaves of BUILD's tree sum to the frequencies of its merged nodes. -/
theorem BuiltTree.cost {F : List FtEntry} {N : List NodeRec} {root : Root} (h : BuiltTree F N root)
    (hF : Buildable F) {code : Symbol → List Digit}
    (hc : ∀ e ∈ F, LeadsToLeaf N root.idx (code e.sym) e.sym) :
    totalCost F code = ((N.drop F.length).map nodeFreq).sum := by
  have hV := h.treeValid hF
  have hpos : 0 < F.length := List.length_pos_of_ne_nil hF.1
  have hlen := h.length
  -- the depth of a node
  have hd : ∀ p, p < N.length → ∃ c, follow N root.idx c = some p := fun p hp => hV.reached hp
  choose! path hpath using hd
  let g : Nat → Nat := fun p => freqAt N p * (path p).length
  have hroot : g root.idx = 0 := by
    have : path root.idx = [] := hV.path_unique (hpath _ hV.root_lt) rfl
    simp [g, this]
  have h1 : ((childIndices N).map g).sum = ∑ p ∈ Finset.range N.length, g p := by
    have := (h.children.map g).sum_eq
    simp only [List.map_append, List.sum_append, List.map_cons, List.map_nil, List.sum_cons,
      List.sum_nil, hroot, add_zero] at this
    rw [this, Finset.sum_range, ← List.sum_ofFn, List.ofFn_eq_map,
      ← List.map_coe_finRange_eq_range, List.map_map]
    rfl
  rw [childIndices_sum] at h1
  have hsplit (f : Nat → Nat) : ∑ p ∈ Finset.range N.length, f p =
      ∑ p ∈ Finset.range F.length, f p + ∑ p ∈ Finset.range (F.length - 1), f (F.length + p) := by
    rw [← Finset.sum_range_add]
    congr 2; omega
  rw [hsplit, hsplit] at h1
  have hleaf : ∀ p ∈ Finset.range F.length, (match N[p]? with
      | some (.internal _ l r) => g l + g r
      | some (.leaf _ _) => 0
      | none => 0) = 0 := fun p hp => by
    rw [h.leaf (List.getElem?_eq_getElem (Finset.mem_range.1 hp))]
  have hint : ∀ p ∈ Finset.range (F.length - 1), (match N[F.length + p]? with
      | some (.internal _ l r) => g l + g r
      | some (.leaf _ _) => 0
      | none => 0) = g (F.length + p) + freqAt N (F.length + p) := fun p hp => by
    have hp := Finset.mem_range.1 hp
    obtain ⟨l, r, hm, -⟩ := h.merged (F.length + p) (by omega) (by omega)
    have hlt : F.length + p < N.length := by omega
    have hi := hV.internal hm
    have hl : path l = path (F.length + p) ++ [false] :=
      hV.path_unique (hpath l (by omega)) (follow_concat.2 ⟨_, _, _, _, hpath _ hlt, hm, by simp⟩)
    have hr : path r = path (F.length + p) ++ [true] :=
      hV.path_unique (hpath r (by omega)) (follow_concat.2 ⟨_, _, _, _, hpath _ hlt, hm, by simp⟩)
    have hf : freqAt N (F.length + p) = freqAt N l + freqAt N r := freqAt_of_getElem? hm
    rw [hm]
    simp only [g, hl, hr, hf, List.length_append, List.length_singleton]
    ring
  rw [Finset.sum_eq_zero hleaf, Finset.sum_congr rfl hint, Finset.sum_add_distrib, zero_add, add_comm] at h1
  have h2 := Nat.add_right_cancel h1
  have e1 : totalCost F code = ∑ p ∈ Finset.range F.length, g p := by
    rw [totalCost, Finset.sum_range, ← List.sum_ofFn]
    congr 1
    refine List.ext_getElem (by simp) fun i hi hi' => ?_
    simp only [List.getElem_map, List.getElem_ofFn, g]
    have hi : i < F.length := by simpa using hi
    have hl := h.leaf (List.getElem?_eq_getElem hi)
    obtain ⟨m, f, hm, hl'⟩ := hc _ (List.getElem_mem hi)
    obtain rfl := leaf_unique hV.2.2.2.1 hl' hl
    rw [hV.path_unique hm (hpath _ (by omega)), freqAt_of_getElem? hl]
    rfl
  rw [e1, ← h2, Finset.sum_range, ← List.sum_ofFn]
  congr 1
  refine List.ext_getElem (by simp; omega) fun i hi hi' => ?_
  have hi : i < F.length - 1 := by simpa using hi
  simp only [List.getElem_map, List.getElem_ofFn, List.getElem_drop]
  exact freqAt_of_getElem? (List.getElem?_eq_getElem (by omega))

end Sys2Proof.Machine
end

