-- ==== Sys2Proof/Laws/PerInstr.lean ====
section
/-! SUPPORT. Laws of the commands as syntax, one lemma per constructor. -/

namespace Sys2Proof.Laws.EncodedWord

/-- A command's word is well formed: reserved field 0 and an assigned opcode (30_encoding.md R80, R81). -/
def Statement (i : Instr) : Prop := wordWellFormed (encode i) = true ∧ opField (encode i) = opcode i

theorem clear : Statement .clear := by constructor <;> decide

theorem count : Statement .count := by constructor <;> decide

theorem build : Statement .build := by constructor <;> decide

theorem table : Statement .table := by constructor <;> decide

theorem encode : Statement .encode := by constructor <;> decide

theorem decode : Statement .decode := by constructor <;> decide

end Sys2Proof.Laws.EncodedWord
end

