-- ==== Sys2Proof/Tests/Slice0.lean ====
section
/-! SUPPORT. Tests on values taken from the spec (95_test_vectors.md and the encoding tables), and for each
statement with hypotheses a concrete state and operands that meet them. -/

namespace Sys2Proof.Tests

open Sys2Proof.Machine

/-! ## Ill-formed terms, each refused by its check -/

/-- A finite instance: 2-bit symbols, 4-bit counts, 3 distinct symbols, 7 input symbols. -/
def small : Params :=
  { symW := some 2, freqW := some 4, nMax := some 7, kMax := some 3, mMax := some 11, oMax := some 7,
    idxW := some 3, lenW := some 4 }

theorem test_small_parameters_are_legal : small.wf = true := by decide

theorem test_unbounded_parameters_are_legal : Params.unbounded.wf = true := by decide

theorem test_zero_symbol_width_refused : { small with symW := some 0 }.symWPositive = false := by decide

theorem test_zero_frequency_width_refused : { small with freqW := some 0 }.freqWPositive = false := by
  decide

theorem test_zero_k_max_refused : { small with kMax := some 0 }.kMaxPositive = false := by decide

theorem test_k_max_above_alphabet_refused : { small with kMax := some 5 }.kMaxFitsSymW = false := by
  decide

theorem test_narrow_index_refused : { small with idxW := some 2 }.idxWLargeEnough = false := by decide

theorem test_narrow_length_refused : { small with lenW := some 3 }.lenWLargeEnough = false := by decide

theorem test_reserved_bits_refused : rsvZero 0b00001000#8 = false := by decide

theorem test_unassigned_opcode_refused : opAssigned 0b00000110#8 = false := by decide

theorem test_every_command_well_formed : ∀ i : Instr, i.wellFormed = true := by
  intro i; cases i <;> decide

/-! ## Words written out from 30_encoding.md R80, R81 -/

theorem test_decode_clear : decode 0b00000000#8 = .ok .clear := by decide

theorem test_decode_count : decode 0b00000001#8 = .ok .count := by decide

theorem test_decode_build : decode 0b00000010#8 = .ok .build := by decide

theorem test_decode_table : decode 0b00000011#8 = .ok .table := by decide

theorem test_decode_encode : decode 0b00000100#8 = .ok .encode := by decide

theorem test_decode_decode : decode 0b00000101#8 = .ok .decode := by decide

theorem test_decode_unassigned :
    decode 0x06#8 = .error .unassignedOpcode ∧ decode 0x07#8 = .error .unassignedOpcode := by decide

/-- X5 and X6 of 95_test_vectors.md. -/
theorem test_decode_reserved :
    decode 0x08#8 = .error .reservedBits ∧ decode 0x81#8 = .error .reservedBits ∧
      decode 0xFF#8 = .error .reservedBits ∧ decode 0x15#8 = .error .reservedBits := by decide

theorem test_table_word : decodeTableWord 8 4 = some .encode := by decide

/-! ## One step of each command: the vectors of 95_test_vectors.md (a = 0, b = 1, c = 2) -/

/-- The state an outcome goes to. -/
def after : Host.Outcome State Fault Refusal → Option State
  | .next s => some s
  | .fault _ => none
  | .refused _ => none

/-- `aabbbcc`. -/
def exampleSym : List Symbol := [0, 0, 1, 1, 1, 2, 2]

/-- `{a:2, b:3, c:2}`. -/
def exampleFt : List FtEntry := [⟨0, 2⟩, ⟨1, 3⟩, ⟨2, 2⟩]

/-- The tree B6. -/
def exampleNode : List NodeRec := [.leaf 0 2, .leaf 1 3, .leaf 2 2, .internal 4 0 2, .internal 7 1 3]

/-- The table T5: `b=0, a=10, c=11`. -/
def exampleCt : List CtEntry := [⟨1, [false]⟩, ⟨0, [true, false]⟩, ⟨2, [true, true]⟩]

/-- `10100001111`. -/
def exampleBits : List Digit :=
  [true, false, true, false, false, false, false, true, true, true, true]

/-- The end state of P1 before DECODE, with the parameters `p`. -/
def loaded (p : Params) : State :=
  { State.resetWith p with
    root := ⟨true, 4⟩
    mem := ⟨exampleSym, exampleFt, exampleNode, exampleCt, exampleBits, []⟩ }

/-- The state with a degenerate tree `{a:4}` and its table. -/
def lone (p : Params) : State :=
  { State.resetWith p with
    root := ⟨true, 0⟩
    mem := ⟨[0, 0, 0, 0], [⟨0, 4⟩], [.leaf 0 4], [⟨0, []⟩], [], []⟩ }

/-- X1. -/
theorem test_clear_gives_reset : after (exec .clear (loaded small)) = some (State.resetWith small) := by
  decide

/-- N7: first-occurrence order. -/
theorem test_count_order :
    (after (exec .count { State.reset with mem := { Memory.empty with sym := [2, 2, 1, 1, 1, 0, 0] } })).map
      (·.mem.ft) = some [⟨2, 2⟩, ⟨1, 3⟩, ⟨0, 2⟩] := by decide

/-- N11: three symbols with `K_MAX = 2`. -/
theorem test_count_capacity :
    (after (exec .count (loaded { small with kMax := some 2 }))).map (fun t => (t.status, t.mem.ft)) =
      some (.capacity, []) := by decide

/-- B10: a leaf beats a merged node of equal frequency. -/
theorem test_build_tie :
    (after (exec .build { State.reset with
      mem := { Memory.empty with ft := [⟨0, 2⟩, ⟨1, 1⟩, ⟨2, 1⟩] } })).map (fun t => (t.mem.node, t.root)) =
      some ([.leaf 0 2, .leaf 1 1, .leaf 2 1, .internal 2 1 2, .internal 4 0 3], ⟨true, 4⟩) := by decide

/-- B15: a merged node becomes a left child. -/
theorem test_build_merged_left :
    (after (exec .build { State.reset with
      mem := { Memory.empty with ft := [⟨0, 1⟩, ⟨1, 4⟩, ⟨2, 4⟩, ⟨3, 2⟩] } })).map
        (fun t => t.mem.node.drop 4) =
      some [.internal 3 0 3, .internal 7 4 1, .internal 11 2 5] := by decide

/-- T5. -/
theorem test_table_walk :
    (after (exec .table (loaded small))).map (fun t => (t.status, t.mem.ct)) = some (.ok, exampleCt) := by
  decide

/-- T1. -/
theorem test_table_null_root :
    (after (exec .table { loaded small with root := .null })).map (fun t => (t.status, t.mem.ct)) =
      some (.ok, []) := by decide

/-- E1. -/
theorem test_encode_bits :
    (after (exec .encode (loaded small))).map (fun t => (t.status, t.mem.bits)) =
      some (.ok, exampleBits) := by decide

/-- E15: LookupError wins over Capacity. -/
theorem test_encode_lookup_wins :
    (after (exec .encode { loaded { small with mMax := some 10 } with
      mem := { (loaded small).mem with sym := [0, 0, 1, 1, 1, 2, 3] } })).map
        (fun t => (t.status, t.mem.bits)) = some (.lookupError, []) := by decide

/-- D17: a dangling 0 is a whole code. -/
theorem test_decode_bits :
    (after (exec .decode { loaded .unbounded with
      mem := { (loaded small).mem with bits := exampleBits ++ [false] } })).map
        (fun t => (t.status, t.mem.out)) = some (.ok, [0, 0, 1, 1, 1, 2, 2, 1]) := by decide

/-- D25: MalformedStream wins over Capacity. -/
theorem test_decode_malformed_wins :
    (after (exec .decode { loaded { small with oMax := some 3 } with
      mem := { (loaded small).mem with bits := [false, false, false, false, true] } })).map
        (fun t => (t.status, t.mem.out)) = some (.malformedStream, []) := by decide

/-- X3: an illegal word. -/
theorem test_illegal_word :
    after (step ((loaded small).load [.cmd 0x06#8])) =
      some { loaded small with status := .illegalCommand } := by decide

/-- `withFetchWord`: the very next step runs the word's command (B1 from reset is X10). -/
theorem test_with_fetch_word :
    after (step (State.reset.withFetchWord 8 2)) = some { State.reset with status := .invalidInput } := by
  decide

/-- The packed CT code field of 30_encoding.md R89's example: `10` with `CODE_MAX = 4` is `0b0001`. -/
theorem test_packed_code : (packCtEntry 2 4 ⟨1, [true, false]⟩).toNat = 0b010100001 := by decide

/-! ## Witnesses: a state and operands that meet the hypotheses of each statement -/

/-- StepRunsDecodedCommand. -/
theorem witness_step_command :
    ((loaded small).load [.cmd 0x03#8]).script = .cmd 0x03#8 :: [] ∧ decode 0x03#8 = .ok .table := by
  decide

/-- IllegalWordOnlySetsStatus: each of its three cases, at the smallest and largest such words. -/
theorem witness_illegal_word :
    ((loaded small).load [.cmd 0x08#8]).script = .cmd 0x08#8 :: [] ∧
      (0x08#8 : Byte).extractLsb' 3 5 ≠ 0b00000#5 ∧ (0xFF#8 : Byte).extractLsb' 3 5 ≠ 0b00000#5 ∧
      (0x06#8 : Byte).extractLsb' 0 3 = 0b110#3 ∧ (0x07#8 : Byte).extractLsb' 0 3 = 0b111#3 := by decide

/-- IdleStepChangesNothing. -/
theorem witness_idle : (loaded small).script = [] := by decide

/-- HostPutReplacesOneBuffer: each buffer filled exactly to its capacity, elements of the largest value. -/
theorem witness_put :
    (fits small.nMax exampleSym.length = true ∧ (∀ x ∈ [0, 0, 1, 1, 1, 2, 3], symFits small x = true)) ∧
      (fits small.kMax ([⟨0, 0⟩, ⟨1, 15⟩, ⟨3, 2⟩] : List FtEntry).length = true ∧
        ∀ e ∈ ([⟨0, 0⟩, ⟨1, 15⟩, ⟨3, 2⟩] : List FtEntry),
          symFits small e.sym = true ∧ freqFits small e.count = true) ∧
      fits small.mMax exampleBits.length = true := by decide

/-- HostPutReplacesOneBuffer, what has no step: one element too many, and the smallest values that are too wide. -/
theorem witness_non_transaction :
    fits small.nMax (exampleSym ++ [0]).length = false ∧ symFits small 4 = false ∧
      fits small.kMax (exampleFt ++ [(⟨3, 1⟩ : FtEntry)]).length = false ∧ freqFits small 16 = false ∧
      fits small.mMax (exampleBits ++ [false]).length = false := by decide

/-- HostReadsReturnAndChangeNothing. -/
theorem witness_host_read :
    ((loaded small).load [.get .node]).script = .get .node :: [] ∧
      ((loaded small).load [.readReg .root]).script = .readReg .root :: [] := by decide

/-- StepKeepsParameters, StepKeepsInvariant. -/
theorem witness_step_next :
    (loaded small).Inv ∧
      (step ((loaded small).load [command .decode]) =
        .next { loaded small with mem := { (loaded small).mem with out := exampleSym } }) :=
  ⟨by decide, rfl⟩

/-- CountWritesOccurrenceTable: the table fills FT, and the counts reach `2^FREQ_W - 1`. -/
theorem witness_count :
    fits small.kMax exampleSym.eraseDups.length = true ∧
      (∀ a ∈ exampleSym, freqFits small (exampleSym.count a) = true) ∧ freqFits small 15 = true := by
  decide

/-- CountTableProperties. -/
theorem witness_count_ok :
    exec .count (loaded small) = .next (loaded small) ∧ (loaded small).status = .ok := ⟨rfl, rfl⟩

/-- CountCapacityFailure: one symbol too many (N11), one occurrence too many (N12), and an instance in
which it cannot happen. -/
theorem witness_count_capacity :
    fits (some 2) exampleSym.eraseDups.length = false ∧
      freqFits small ((List.replicate 16 0).count 0) = false ∧
      (loaded { small with kMax := some 4 }).mem.wf { small with kMax := some 4 } = true ∧
      (7 : Nat) < 2 ^ 4 := by decide

/-- BuildInputCheck: the empty table, a zero count, a repeated symbol, and a sum one too large (B16, B17,
B18, B22). -/
theorem witness_build_failure :
    (State.reset.mem.ft = []) ∧ (∃ e ∈ ([⟨0, 0⟩, ⟨1, 1⟩] : List FtEntry), e.count = 0) ∧
      ¬ (([⟨0, 1⟩, ⟨0, 2⟩] : List FtEntry).map FtEntry.sym).Nodup ∧ Buildable [⟨0, 8⟩, ⟨1, 8⟩] ∧
      freqFits small (([⟨0, 8⟩, ⟨1, 8⟩] : List FtEntry).map FtEntry.count).sum = false := by decide

/-- BuildResultShape: a table whose sum is exactly `2^FREQ_W - 1`. -/
theorem witness_build :
    Buildable [⟨0, 7⟩, ⟨1, 8⟩] ∧
      freqFits small (([⟨0, 7⟩, ⟨1, 8⟩] : List FtEntry).map FtEntry.count).sum = true := by decide

/-- BuildOfSingleEntry. -/
theorem witness_build_single :
    (lone small).mem.ft = [⟨0, 4⟩] ∧ 1 ≤ (4 : Nat) ∧ freqFits small 4 = true := by decide

/-- BuildMergesTwoLowest. -/
theorem witness_build_ok :
    exec .build (loaded small) = .next (loaded small) ∧ (loaded small).status = .ok := ⟨rfl, rfl⟩

/-- BuildMinimisesTotalCodeLength: its hypotheses, and a prefix-free code to compare with. -/
theorem witness_optimal :
    exec .build (loaded small) = .next (loaded small) ∧ (loaded small).status = .ok ∧
      PrefixFreeOn (exampleFt.map FtEntry.sym)
        (fun a => if a = 0 then [false] else if a = 1 then [true, false] else [true, true]) :=
  ⟨rfl, rfl, by decide⟩

/-- TableRecordsLeafPaths, TableCodesPrefixFreeAndComplete: the tree B6 and the degenerate tree. -/
theorem witness_tree :
    TreeValid exampleNode ⟨true, 4⟩ ∧ 2 ≤ leafCount exampleNode ∧ TreeValid [.leaf 0 4] ⟨true, 0⟩ ∧
      exec .table (loaded small) = .next (loaded small) := ⟨by decide, by decide, by decide, rfl⟩

/-- TableOfLeafRootAndNullRoot, EncodeWithDegenerateTable, DecodeDegenerateTree. -/
theorem witness_degenerate :
    (lone small).mem.node = [.leaf 0 4] ∧ (lone small).root = ⟨true, 0⟩ ∧
      (lone small).mem.ct = [⟨0, []⟩] ∧ (∀ x ∈ (lone small).mem.sym, x = 0) ∧ (∃ x ∈ exampleSym, x ≠ 0) ∧
      (lone small).mem.bits = [] ∧ exampleBits ≠ [] ∧ fits (some 4) 4 = true ∧ fits (some 3) 4 = false ∧
      State.reset.root.valid = false := by decide

/-- TableAlwaysEndsOk, StepFromInvariantCompletes, RegistersFitTheirWidths. -/
theorem witness_invariant :
    (loaded small).Inv ∧ (lone small).Inv ∧ ((loaded small).load [.put (.bits exampleBits)]).Inv ∧
      transactionExists small (.put (.bits exampleBits)) = true ∧ small.lenW = some 4 ∧
      small.idxW = some 3 := ⟨by decide, by decide, by decide, by decide, by decide, by decide⟩

/-- The code of each symbol in T5. -/
def exampleCode (a : Symbol) : List Digit :=
  if a = 0 then [true, false] else if a = 1 then [false] else [true, true]

/-- EncodeConcatenatesCodes, EncodeFailures, EncodeLengthLaw: 11 digits with `M_MAX` 11 and 10, and
an instance in which Capacity cannot happen. -/
theorem witness_encode :
    (exampleCt.map CtEntry.sym).Nodup ∧ (∀ x ∈ exampleSym, (⟨x, exampleCode x⟩ : CtEntry) ∈ exampleCt) ∧
      fits (some 11) (exampleSym.flatMap exampleCode).length = true ∧
      fits (some 10) (exampleSym.flatMap exampleCode).length = false ∧
      (loaded { small with mMax := some 14 }).mem.wf { small with mMax := some 14 } = true ∧
      small.codeMax = some 2 ∧ 7 * 2 ≤ 14 := by decide

/-- EncodeLengthLaw: its chain of commands and its empty input. -/
theorem witness_encode_chain :
    exec .count (loaded small) = .next (loaded small) ∧ exec .build (loaded small) = .next (loaded small) ∧
      exec .table (loaded small) = .next (loaded small) ∧
      exec .encode (loaded small) = .next (loaded small) ∧ (loaded small).status = .ok ∧
      (∀ e ∈ (loaded small).mem.ft, (⟨e.sym, exampleCode e.sym⟩ : CtEntry) ∈ (loaded small).mem.ct) ∧
      State.reset.mem.sym = [] := ⟨rfl, rfl, rfl, rfl, rfl, by decide, rfl⟩

/-- EncodeFailures, the missing symbol (E5). -/
theorem witness_encode_missing : ∃ x ∈ [0, 1, 3], ∀ e ∈ exampleCt, e.sym ≠ x := by decide

/-- DecodeWithNullRoot. -/
theorem witness_decode_null :
    State.reset.root.valid = false ∧ State.reset.mem.bits = [] ∧ [false] ≠ ([] : List Digit) := by decide

/-- Each code of T5 leads from the root of B6 to its leaf. -/
theorem witness_leads : ∀ a ∈ [0, 1, 2], LeadsToLeaf exampleNode 4 (exampleCode a) a := by
  intro a h
  simp only [List.mem_cons, List.not_mem_nil, or_false] at h
  obtain rfl | rfl | rfl := h
  · exact ⟨0, 2, by decide, by decide⟩
  · exact ⟨1, 3, by decide, by decide⟩
  · exact ⟨2, 2, by decide, by decide⟩

/-- DecodeReadsCodeSequences, DecodeCapacityFailure: D1, with room for exactly its 7 symbols, and without. -/
theorem witness_parse :
    Parses exampleNode 4 exampleBits exampleSym ∧ fits (some 7) exampleSym.length = true ∧
      fits (some 6) exampleSym.length = false ∧ exampleBits = exampleSym.flatMap exampleCode := by
  refine ⟨⟨exampleSym.map fun a => (exampleCode a, a), by decide, by decide, ?_⟩, by decide, by decide,
    by decide⟩
  intro q hq
  obtain ⟨a, ha, rfl⟩ := List.mem_map.1 hq
  exact witness_leads a (by revert a; decide)

/-- DecodeMalformedExactly: the three cases and an exec that ends so (D4, D5, D8). The digits `1` end at
the internal node 3, so that no parse of them exists. -/
theorem witness_malformed :
    (TreeWf exampleNode ⟨true, 4⟩ ∧ follow exampleNode 4 [true] = some 3) ∧
      (TreeWf [.leaf 0 4] ⟨true, 0⟩ ∧ leafCount [.leaf 0 4] = 1) ∧ TreeWf [] .null ∧
      (after (exec .decode { loaded small with mem := { (loaded small).mem with bits := [true] } })).map
        (·.status) = some .malformedStream := by decide

/-- The digits `1` are no sequence of codes of B6: a first code beginning with 1 has two digits. -/
theorem witness_no_parse : ∀ S, ¬ Parses exampleNode 4 [true] S := by
  rintro S ⟨ps, hE, -, h⟩
  match ps, hE, h with
  | (c, a) :: ps, hE, h =>
    obtain ⟨m, f, hf, hm⟩ := h (c, a) (by simp)
    have hc : c.length ≤ 1 := by
      have := congrArg List.length hE
      simp at this
      omega
    match c, hc, hf, hE with
    | [], _, hf, _ =>
      obtain rfl : m = 4 := by simpa [follow] using hf.symm
      simp [exampleNode] at hm
    | [d], _, hf, hE =>
      obtain rfl : d = true := by simpa using (congrArg List.head? hE).symm
      obtain rfl : m = 3 := by simpa [follow, exampleNode] using hf.symm
      simp [exampleNode] at hm

/-- DanglingDigitsAreMalformed: P4, the dangling 1 of `101000011111`. -/
theorem witness_dangling :
    TreeValid exampleNode ⟨true, 4⟩ ∧ LeadsToLeaf exampleNode 4 ([true] ++ [false]) 0 :=
  ⟨by decide, 0, 2, by decide, by decide⟩

/-- RoundTripRecoversInput, RoundtripSequenceFromReset: parameters with exactly the room the statement
asks for, and the empty input. -/
theorem witness_round_trip :
    exampleSym ≠ [] ∧ RoomFor { small with mMax := some 14 } exampleSym ∧ fits small.nMax 7 = true ∧
      (∀ x ∈ exampleSym, symFits small x = true) ∧ RoomFor small [] := by decide

/-- ReachableTreesAndTablesAreWellFormed: a run of two transactions. -/
theorem witness_reachable :
    small.wf = true ∧
      Sys2Proof.core.run 2 ((State.resetWith small).load [.put (.sym exampleSym), command .count]) =
        .next { State.resetWith small with
          mem := { Memory.empty with sym := exampleSym, ft := exampleFt } } := ⟨by decide, rfl⟩

/-- ResetLeavesEverythingEmpty: both its cases. -/
theorem witness_reset :
    State.resetWith small = State.resetWith small ∧
      exec .clear (loaded small) = .next (State.resetWith small) := ⟨rfl, rfl⟩

/-- StatusCodesOfCommands: a word that is no command's. -/
theorem witness_undecodable :
    ((loaded small).load [.cmd 0x06#8]).script = .cmd 0x06#8 :: [] ∧
      step ((loaded small).load [.cmd 0x06#8]) = .next { loaded small with status := .illegalCommand } ∧
      ∀ i, decode 0x06#8 ≠ .ok i := by
  refine ⟨rfl, rfl, fun i => ?_⟩
  cases i <;> decide

/-- FailureEmptiesDestination, RepeatedCommandGivesSameState, CommandsChangeOnlyTheirDestination: a
command that ends with an error. -/
theorem witness_failure :
    exec .build State.reset = .next { State.reset with status := .invalidInput } ∧
      ({ State.reset with status := .invalidInput } : State).status ≠ .ok := ⟨rfl, by decide⟩

/-- CommandsReadOnlyTheirSources: two different states that agree on what TABLE reads. -/
theorem witness_same_sources :
    (loaded small).params = ({ loaded small with mem := { (loaded small).mem with ct := [] } } : State).params ∧
      (∀ o ∈ sources .table, (loaded small).operand o =
        ({ loaded small with mem := { (loaded small).mem with ct := [] } } : State).operand o) ∧
      exec .table (loaded small) = .next (loaded small) := ⟨rfl, by decide, rfl⟩

/-- CapacityIsTheOnlyEffectOfBounds. -/
theorem witness_unbounded :
    (loaded .unbounded).params = .unbounded ∧
      exec .count (loaded .unbounded) = .next (loaded .unbounded) ∧
      (loaded .unbounded).status ≠ .capacity := ⟨rfl, rfl, by decide⟩

/-- PackedRecordsReadBack: the largest values of 2-bit symbols, 4-bit counts and 3-bit indices. -/
theorem witness_layout :
    (3 : Nat) < 2 ^ 2 ∧ (15 : Nat) < 2 ^ 4 ∧ (7 : Nat) < 2 ^ 3 ∧
      ([true, true] : List Digit).length ≤ 2 := by decide

end Sys2Proof.Tests
end

section
/-! PROOFS of the statements about the state (10_state.md): the reset state is empty, and every run from
reset keeps the tree of R38 and the table of R39. -/

namespace Sys2Proof.Machine

/-! ## The empty state (10_state.md R40) -/

/-- CLEAR leaves the reset state of the same instance; the host's transactions and replies are no part of
the architectural state (45_system.md R165). -/
theorem execClear_eq (s : State) : execClear s =
    .next { State.resetWith s.params with script := s.script, replies := s.replies } := rfl

theorem memRead_nil {α : Type} (i n : Nat) : memRead ([] : List α) i (n + 1) = none :=
  if_neg (by simp)

theorem State.len_eq_zero {s : State} (h : s.mem = .empty) (b : Buffer) : s.len b = 0 := by
  cases b <;> simp [h, Memory.empty]

theorem State.elem_eq_none {s : State} (h : s.mem = .empty) (b : Buffer) (i : Nat) :
    s.elem b i = none := by
  cases b <;> simp [State.elem, h, Memory.empty, memRead_nil]

/-- Settles O9: the reset state and the state CLEAR leaves have the same STATUS, ROOT and buffers. -/
theorem resetLeavesEverythingEmpty : Obligations.ResetLeavesEverythingEmpty := by
  refine ⟨rfl, fun s h => ?_⟩
  have hs : s.status = .ok ∧ s.mem = .empty ∧ s.root = .null := by
    rcases h with ⟨p, rfl⟩ | ⟨t, ht⟩
    · exact ⟨rfl, rfl, rfl⟩
    · obtain rfl := Host.Outcome.next.inj ((execClear_eq t).symm.trans ht)
      exact ⟨rfl, rfl, rfl⟩
  obtain ⟨hstatus, hmem, hroot⟩ := hs
  exact ⟨hstatus, fun b => ⟨State.len_eq_zero hmem b, State.elem_eq_none hmem b⟩, by rw [hroot]; rfl,
    by rw [hroot]; rfl⟩

/-! ## The table of a valid tree (10_state.md R39) -/

/-- TABLE's walk of a valid tree gives a well-formed table: the one empty code of a root that is a leaf, or
prefix-free codes of at least one digit. -/
theorem TreeValid.tableWf {N : List NodeRec} {root : Root} (h : TreeValid N root) {T : List CtEntry}
    (hT : WalkOk N root.idx [] T) : TableWf T := by
  have hlen := h.table_length hT
  have path {e : CtEntry} (he : e ∈ T) : LeadsToLeaf N root.idx e.code e.sym := hT.mem_root.1 he
  rcases h.root_cases with ⟨hk, -, a, f, hleaf⟩ | ⟨hk, f, l, r, hint⟩
  · exact .inr (.inl ⟨hlen.trans hk, fun e he => ((leadsToLeaf_leaf hleaf).1 (path he)).1⟩)
  · refine .inr (.inr ⟨hlen ▸ hk, h.table_syms_nodup hT, fun e he => ?_, hT.order.imp CodeBefore.apart⟩)
    obtain ⟨u, hu, -⟩ | ⟨u, hu, -⟩ := (leadsToLeaf_internal hint).1 (path he) <;> simp [hu]

/-- Whatever a well-formed tree's code table is, it is well formed. -/
theorem TreeWf.tableWf_codeTable {N : List NodeRec} {root : Root} (h : TreeWf N root) {T : List CtEntry}
    (hT : codeTable N root = some T) : TableWf T := by
  rcases h with ⟨rfl, -⟩ | h
  · exact .inl (by simpa [codeTable, Root.null] using hT.symm)
  · obtain ⟨T', h', hwalk⟩ := h.codeTable
    obtain rfl := Option.some.inj (hT.symm.trans h')
    exact h.tableWf hwalk

/-! ## What each step does to tree and table -/

/-- The part of the invariant that 10_state.md R38 and R39 state. -/
structure State.TreesWf (s : State) : Prop where
  tree : TreeWf s.mem.node s.root
  table : TableWf s.mem.ct

/-- Two states hold the same NODE, ROOT and CT. -/
structure SameTrees (s t : State) : Prop where
  node : t.mem.node = s.mem.node
  root : t.root = s.root
  ct : t.mem.ct = s.mem.ct

theorem SameTrees.treesWf {s t : State} (h : SameTrees s t) (hs : s.TreesWf) : t.TreesWf :=
  ⟨by rw [h.node, h.root]; exact hs.tree, by rw [h.ct]; exact hs.table⟩

/-- The empty tree and the empty table are well formed. -/
theorem State.treesWf_of_empty {s : State} (hmem : s.mem = .empty) (hroot : s.root = .null) : s.TreesWf :=
  ⟨.inl ⟨hroot, by rw [hmem]; rfl⟩, .inl (by rw [hmem]; rfl)⟩

theorem execClear_treesWf {s t : State} (h : execClear s = .next t) : t.TreesWf := by
  obtain rfl := Host.Outcome.next.inj ((execClear_eq s).symm.trans h)
  exact State.treesWf_of_empty rfl rfl

theorem execCount_sameTrees {s t : State} (h : execCount s = .next t) : SameTrees s t := by
  obtain ⟨-, e⟩ | ⟨-, e⟩ := execCount_cases s <;>
    (obtain rfl := Host.Outcome.next.inj (e.symm.trans h); exact ⟨rfl, rfl, rfl⟩)

theorem execEncode_sameTrees {s t : State} (h : execEncode s = .next t) : SameTrees s t := by
  obtain ⟨_, -, -, e⟩ | ⟨-, e⟩ | ⟨_, -, -, e⟩ := execEncode_cases s <;>
    (obtain rfl := Host.Outcome.next.inj (e.symm.trans h); exact ⟨rfl, rfl, rfl⟩)

theorem execDecode_sameTrees {s t : State} (h : execDecode s = .next t) : SameTrees s t := by
  obtain ⟨_, -, -, e⟩ | ⟨-, e⟩ | ⟨_, -, -, e⟩ | ⟨-, e⟩ := execDecode_cases s
  case inr.inr.inr => rw [e] at h; cases h
  all_goals obtain rfl := Host.Outcome.next.inj (e.symm.trans h); exact ⟨rfl, rfl, rfl⟩

/-- BUILD writes a valid tree, or empties NODE and ROOT, whatever tree it finds. -/
theorem execBuild_treeWf_ct {s t : State} (h : execBuild s = .next t) :
    TreeWf t.mem.node t.root ∧ t.mem.ct = s.mem.ct := by
  obtain ⟨hF, -, e⟩ | ⟨-, e⟩ | ⟨-, -, e⟩ := execBuild_cases s <;>
    obtain rfl := Host.Outcome.next.inj (e.symm.trans h)
  · exact ⟨.inr ((buildTree_spec hF.1).treeValid hF), rfl⟩
  · exact ⟨.inl ⟨rfl, rfl⟩, rfl⟩
  · exact ⟨.inl ⟨rfl, rfl⟩, rfl⟩

/-- TABLE writes the code table of the tree and leaves the tree. -/
theorem execTable_codeTable {s t : State} (h : execTable s = .next t) :
    codeTable s.mem.node s.root = some t.mem.ct ∧ t.mem.node = s.mem.node ∧ t.root = s.root := by
  obtain ⟨T, hT, e⟩ | ⟨-, e⟩ := execTable_cases s
  · obtain rfl := Host.Outcome.next.inj (e.symm.trans h)
    exact ⟨hT, rfl, rfl⟩
  · rw [e] at h; cases h

/-- Every command keeps the tree of R38 and the table of R39. -/
theorem exec_keeps_treesWf {i : Instr} {s t : State} (h : exec i s = .next t) (hs : s.TreesWf) :
    t.TreesWf := by
  cases i with
  | clear => exact execClear_treesWf h
  | count => exact (execCount_sameTrees h).treesWf hs
  | build =>
    obtain ⟨htree, hct⟩ := execBuild_treeWf_ct h
    exact ⟨htree, by rw [hct]; exact hs.table⟩
  | table =>
    obtain ⟨hT, hnode, hroot⟩ := execTable_codeTable h
    exact ⟨by rw [hnode, hroot]; exact hs.tree, hs.tree.tableWf_codeTable hT⟩
  | encode => exact (execEncode_sameTrees h).treesWf hs
  | decode => exact (execDecode_sameTrees h).treesWf hs

/-- NODE and CT are read-only to the host (45_system.md R167). -/
theorem hostPut_sameTrees {c : Contents} {s t : State} (h : hostPut c s = .next t) : SameTrees s t := by
  obtain ⟨hw, -, -, e⟩ | ⟨_, e⟩ := hostPut_cases c s <;> rw [e] at h
  · obtain rfl := Host.Outcome.next.inj h
    cases c with
    | node L | ct L | out L => simp [contentsBuffer, hostWritable] at hw
    | sym L | ft L | bits L => exact ⟨rfl, rfl, rfl⟩
  · cases h

/-- Every step keeps the tree of R38 and the table of R39. -/
theorem step_keeps_treesWf {s t : State} (h : step s = .next t) (hs : s.TreesWf) : t.TreesWf := by
  obtain ⟨-, rfl⟩ | ⟨_, rest, -, hstep⟩ := step_cases h
  · exact hs
  · have hrest : State.TreesWf { s with script := rest } := ⟨hs.tree, hs.table⟩
    obtain ⟨_, _, -, -, hexec⟩ | ⟨_, _, -, -, rfl⟩ | ⟨_, -, hput⟩ | ⟨_, -, rfl⟩ | ⟨_, -, rfl⟩ := hstep
    · exact exec_keeps_treesWf hexec hrest
    · exact ⟨hs.tree, hs.table⟩
    · exact (hostPut_sameTrees hput).treesWf hrest
    · exact ⟨hs.tree, hs.table⟩
    · exact ⟨hs.tree, hs.table⟩

/-! ## Runs -/

/-- A run of one step more goes through the state after its first step. -/
theorem run_succ (M : Host.Core) (k : Nat) (s t : M.State) :
    M.run (k + 1) s = .next t ↔ ∃ u, M.step s = .next u ∧ M.run k u = .next t := by
  rw [Host.Core.run]
  cases M.step s <;> simp

/-- What every step keeps, every run keeps. -/
theorem core_run_keeps {P : State → Prop} (hP : ∀ {s t : State}, step s = .next t → P s → P t) {k : Nat}
    {s t : State} (h : core.run k s = .next t) (hs : P s) : P t := by
  induction k generalizing s with
  | zero =>
    obtain rfl := Host.Outcome.next.inj h
    exact hs
  | succ k ih =>
    obtain ⟨u, hstep, hrun⟩ := (run_succ core k s t).1 h
    exact ih hrun (hP hstep hs)

/-- Settles O44, by induction on the number of steps: tree and table are empty at reset, whatever is loaded,
and every step keeps them well formed. -/
theorem reachableTreesAndTablesAreWellFormed : Obligations.ReachableTreesAndTablesAreWellFormed := by
  intro p ts k t _ hrun
  have hreset : ((State.resetWith p).load ts).TreesWf := State.treesWf_of_empty rfl rfl
  obtain ⟨htree, htable⟩ := core_run_keeps step_keeps_treesWf hrun hreset
  exact ⟨htree, htable⟩

end Sys2Proof.Machine
end

section
/-! PROOFS of the statements about command words (30_encoding.md): which words decode to a command. -/

namespace Sys2Proof

/-! ## The fields of a command word (30_encoding.md R80, R81) -/

/-- The assigned opcodes are `000` to `101`. -/
theorem exists_opcode_eq_iff {op : BitVec 3} : (∃ i, opcode i = op) ↔ op.toNat ≤ 0b101 := by
  constructor
  · rintro ⟨i, rfl⟩
    cases i <;> decide
  · intro hop
    have hmem : op ∈ [Instr.clear, .count, .build, .table, .encode, .decode].map opcode := by
      revert op
      decide
    obtain ⟨i, -, hi⟩ := List.mem_map.1 hmem
    exact ⟨i, hi⟩

theorem decodeOp_ok_iff {op : BitVec 3} {i : Instr} : decodeOp op = .ok i ↔ opcode i = op := by
  revert op
  cases i <;> decide

/-- The decoder reads the two fields of the word, and nothing else. -/
theorem decode_ok_iff_fields {w : Byte} {i : Instr} :
    decode w = .ok i ↔ rsvField w = 0#5 ∧ opcode i = opField w := by
  by_cases hrsv : rsvField w = 0#5 <;> simp [decode, hrsv, decodeOp_ok_iff]

/-- Settles O1: some command's opcode stands in `op` exactly when `op` is at most `101`, and a command is
decoded exactly from its own encoding, which is the word the statement gives. -/
theorem decodeAcceptsExactlySixWords : Obligations.DecodeAcceptsExactlySixWords := by
  have hword (i : Instr) (w : Byte) : decode w = .ok i ↔ w = encode i := Machine.decode_ok_iff
  refine ⟨fun w => ?_, hword .clear, hword .count, hword .build, hword .table, hword .encode,
    hword .decode⟩
  calc (∃ i, decode w = .ok i)
    _ ↔ rsvField w = 0#5 ∧ ∃ i, opcode i = opField w := by
      simp only [decode_ok_iff_fields, exists_and_left]
    _ ↔ rsvField w = 0#5 ∧ (opField w).toNat ≤ 0b101 := and_congr_right' exists_opcode_eq_iff

end Sys2Proof
end

section
/-! PROOFS of the statements about COUNT (40_frequency_counter.md): what the table it writes is, and when it
does not fit. -/

namespace Sys2Proof.Machine

/-! ## The order of the table (40_frequency_counter.md R101 (d)) -/

/-- The distinct symbols stand in the order of their first occurrences. -/
theorem eraseDups_pairwise_idxOf (S : List Symbol) :
    S.eraseDups.Pairwise fun a b => S.idxOf a < S.idxOf b := by
  induction S using List.reverseRecOn with
  | nil => simp
  | append_singleton S b ih =>
    have hold : S.eraseDups.Pairwise fun x y => (S ++ [b]).idxOf x < (S ++ [b]).idxOf y := by
      refine ih.imp_of_mem fun {x y} hx hy hxy => ?_
      rwa [List.idxOf_append_of_mem (mem_eraseDups.1 hx), List.idxOf_append_of_mem (mem_eraseDups.1 hy)]
    rw [eraseDups_concat]
    split
    case isTrue => exact hold
    case isFalse hb =>
      refine List.pairwise_append.2 ⟨hold, List.pairwise_singleton _ _, fun x hx y hy => ?_⟩
      obtain rfl := List.mem_singleton.1 hy
      have hxS : x ∈ S := mem_eraseDups.1 hx
      rw [List.idxOf_append_of_mem hxS, List.idxOf_append_of_notMem hb]
      exact Nat.lt_add_right _ (List.idxOf_lt_length_of_mem hxS)

theorem occurrenceTable_sortedLT_idxOf (S : List Symbol) :
    ((occurrenceTable S).map fun e => S.idxOf e.sym).SortedLT := by
  have h : (occurrenceTable S).map (fun e => S.idxOf e.sym) = S.eraseDups.map S.idxOf := by
    simp [occurrenceTable, Function.comp_def]
  rw [h, List.sortedLT_iff_pairwise, List.pairwise_map]
  exact eraseDups_pairwise_idxOf S

theorem occurrenceTable_lt_iff_idxOf_lt {S : List Symbol} {i j : Nat} {e f : FtEntry}
    (hi : (occurrenceTable S)[i]? = some e) (hj : (occurrenceTable S)[j]? = some f) :
    i < j ↔ S.idxOf e.sym < S.idxOf f.sym := by
  obtain ⟨hi', rfl⟩ := List.getElem?_eq_some_iff.1 hi
  obtain ⟨hj', rfl⟩ := List.getElem?_eq_some_iff.1 hj
  have h := (occurrenceTable_sortedLT_idxOf S).getElem_lt_getElem_iff (i := i) (j := j)
    (hi := by simpa using hi') (hj := by simpa using hj')
  simpa using h.symm

/-! ## The table after an OK -/

theorem occurrenceTable_eq_nil_iff {S : List Symbol} : occurrenceTable S = [] ↔ S = [] := by
  constructor
  · intro h
    by_contra hS
    exact (occurrenceTable_buildable hS).1 h
  · rintro rfl
    rfl

/-- A COUNT that ends OK leaves the occurrence table of SYM in FT. -/
theorem execCount_ft_of_ok {s t : State} (h : execCount s = .next t) (hok : t.status = .ok) :
    t.mem.ft = occurrenceTable s.mem.sym := by
  obtain ⟨-, e⟩ | ⟨-, e⟩ := execCount_cases s <;> obtain rfl := Host.Outcome.next.inj (e.symm.trans h)
  · rfl
  · cases hok

/-- Settles O13: FT is the occurrence table of SYM, of which each property is a lemma. -/
theorem countTableProperties : Obligations.CountTableProperties := by
  intro s t h hok
  rw [execCount_ft_of_ok h hok]
  refine ⟨⟨?_, fun a => ?_⟩, fun e he => ?_, occurrenceTable_sum _,
    fun i j e f => occurrenceTable_lt_iff_idxOf_lt, ?_, occurrenceTable_buildable⟩
  · rw [occurrenceTable_syms]
    exact nodup_eraseDups _
  · rw [occurrenceTable_syms]
    exact mem_eraseDups
  · obtain ⟨hmem, hcount⟩ := mem_occurrenceTable.1 he
    exact ⟨hcount, hcount ▸ List.count_pos_iff.2 hmem⟩
  · rw [List.length_eq_zero_iff, List.length_eq_zero_iff, occurrenceTable_eq_nil_iff]

/-! ## When the table does not fit (40_frequency_counter.md R102) -/

theorem fits_widthMax_some {w n : Nat} : fits (widthMax (some w)) n = true ↔ n < 2 ^ w := by
  have hpos : 0 < 2 ^ w := Nat.two_pow_pos w
  rw [widthMax, Option.map_some, fits_some]
  omega

/-- There are at most `2^w` distinct Symbols of `w` bits. -/
theorem eraseDups_length_le_two_pow {S : List Symbol} {w : Nat} (h : ∀ a ∈ S, a < 2 ^ w) :
    S.eraseDups.length ≤ 2 ^ w := by
  have hsub : S.eraseDups ⊆ List.range (2 ^ w) := fun a ha =>
    List.mem_range.2 (h a (mem_eraseDups.1 ha))
  simpa using ((nodup_eraseDups S).subperm hsub).length_le

theorem contentsFit_sym {p : Params} {S : List Symbol} :
    contentsFit p (.sym S) = true ↔ fits p.nMax S.length = true ∧ ∀ a ∈ S, symFits p a = true := by
  simp [contentsFit, bufferCap, contentsBuffer, contentsLength, elementsFit]

/-- "With `K_MAX = 2^SYM_W` and `2^FREQ_W > N_MAX` this cannot happen" (40_frequency_counter.md R102). -/
theorem tableFits_occurrenceTable_of_contentsFit {p : Params} {S : List Symbol} {w f n : Nat}
    (hS : contentsFit p (.sym S) = true) (hw : p.symW = some w) (hk : p.kMax = some (2 ^ w))
    (hf : p.freqW = some f) (hn : p.nMax = some n) (hnf : n < 2 ^ f) :
    tableFits p (occurrenceTable S) = true := by
  obtain ⟨hlen, hsym⟩ := contentsFit_sym.1 hS
  rw [hn, fits_some] at hlen
  simp only [symFits, hw, fits_widthMax_some] at hsym
  rw [tableFits_occurrenceTable, hk, fits_some]
  refine ⟨eraseDups_length_le_two_pow hsym, fun a _ => ?_⟩
  rw [freqFits, hf, fits_widthMax_some]
  calc S.count a
    _ ≤ S.length := List.count_le_length
    _ ≤ n := hlen
    _ < 2 ^ f := hnf

/-- Settles O14: the two causes are those for which the occurrence table does not fit, and neither can arise
under R102's condition on the parameters. -/
theorem countCapacityFailure : Obligations.CountCapacityFailure := by
  constructor
  · intro s hcause
    have hnot : ¬ tableFits s.params (occurrenceTable s.mem.sym) = true := by
      rw [tableFits_occurrenceTable]
      rintro ⟨hk, hcounts⟩
      obtain hk' | ⟨a, ha, hf⟩ := hcause
      · exact absurd hk (by simp [hk'])
      · exact absurd (hcounts a ha) (by simp [hf])
    obtain ⟨hfit, -⟩ | ⟨-, e⟩ := execCount_cases s
    · exact absurd hfit hnot
    · exact e
  · intro s w f n hwf hw hk hf hn hnf
    have hfit := tableFits_occurrenceTable_of_contentsFit (Memory.wf_iff.1 hwf .sym) hw hk hf hn hnf
    obtain ⟨-, e⟩ | ⟨hnot, -⟩ := execCount_cases s
    · exact ⟨_, e, rfl⟩
    · exact absurd hfit (by simp [hnot])

end Sys2Proof.Machine
end

section
/-! PROOFS of the statements about BUILD (41_tree_builder.md): when it fails, the tree it makes, and that no
prefix-free code has a lower total cost. -/

namespace Sys2Proof.Machine

/-! ## When BUILD ends OK and what it then leaves -/

/-- A table that passes the check and whose sum fits is built. -/
theorem exec_build_of_fits {s : State} (hF : Buildable s.mem.ft)
    (hfit : freqFits s.params (sumCounts s.mem.ft) = true) :
    exec .build s = .next { s with
      status := .ok, root := (buildTree s.mem.ft).2
      mem := { s.mem with node := (buildTree s.mem.ft).1 } } := by
  obtain ⟨-, -, e⟩ | ⟨hnot, -⟩ | ⟨-, hnot, -⟩ := execBuild_cases s
  · exact e
  · exact absurd hF hnot
  · exact absurd hfit (by simp [hnot])

/-- A BUILD that ends OK was given a table that passes the check, and leaves its tree. -/
theorem exec_build_ok {s t : State} (h : exec .build s = .next t) (hok : t.status = .ok) :
    Buildable s.mem.ft ∧ t.mem.node = (buildTree s.mem.ft).1 ∧ t.root = (buildTree s.mem.ft).2 := by
  obtain ⟨hF, -, e⟩ | ⟨-, e⟩ | ⟨-, -, e⟩ := execBuild_cases s <;>
    obtain rfl := Host.Outcome.next.inj (e.symm.trans h)
  · exact ⟨hF, rfl, rfl⟩
  · cases hok
  · cases hok

/-- The tree a BUILD that ends OK leaves in NODE and ROOT. -/
theorem builtTree_of_exec_build_ok {s t : State} (h : exec .build s = .next t) (hok : t.status = .ok) :
    BuiltTree s.mem.ft t.mem.node t.root := by
  obtain ⟨hF, hnode, hroot⟩ := exec_build_ok h hok
  rw [hnode, hroot]
  exact buildTree_spec hF.1

/-! ## The input check (41_tree_builder.md R111, R117) -/

/-- Settles O15: a table with one of R111's three faults is not Buildable, and a Buildable one whose sum
does not fit is left only Capacity among BUILD's outcomes. -/
theorem buildInputCheck : Obligations.BuildInputCheck := by
  constructor
  · intro s hfault
    have hnot : ¬ Buildable s.mem.ft := by
      rintro ⟨hne, hpos, hnodup⟩
      obtain hnil | ⟨e, he, hzero⟩ | hrep := hfault
      · exact hne hnil
      · exact absurd (hpos e he) (by simp [hzero])
      · exact hrep hnodup
    obtain ⟨hF, -⟩ | ⟨-, e⟩ | ⟨hF, -⟩ := execBuild_cases s
    · exact absurd hF hnot
    · exact e
    · exact absurd hF hnot
  · intro s hF hover
    obtain ⟨-, hfit, -⟩ | ⟨hnot, -⟩ | ⟨-, -, e⟩ := execBuild_cases s
    · exact absurd (hfit.symm.trans hover) (by decide)
    · exact absurd hF hnot
    · exact e

/-! ## The shape of the tree (41_tree_builder.md R116, R119) -/

/-- The frequencies of the merged nodes are non-decreasing in index order. -/
theorem BuiltTree.freq_mono {F : List FtEntry} {N : List NodeRec} {root : Root} (h : BuiltTree F N root)
    {p q : Nat} (hp : F.length ≤ p) (hpq : p ≤ q) (hq : q < N.length) : freqAt N p ≤ freqAt N q := by
  induction q, hpq using Nat.le_induction with
  | base => exact le_rfl
  | succ q hpq ih => exact (ih (by omega)).trans (h.freq_succ (hp.trans hpq) hq)

/-- Settles O16: BUILD leaves `buildTree`'s nodes, whose shape `BuiltTree` describes. -/
theorem buildResultShape : Obligations.BuildResultShape := by
  intro s hF hfit
  have htree := buildTree_spec hF.1
  have hroot := htree.root_eq
  refine ⟨(buildTree s.mem.ft).1, ?_, htree.length, fun i e => htree.leaf, fun p hp hlt => ?_, ?_,
    fun p q => htree.freq_mono, ?_⟩
  · rw [← hroot]
    exact exec_build_of_fits hF hfit
  · obtain ⟨l, r, hnode, hl, hr, -⟩ := htree.merged p hp hlt
    exact ⟨l, r, hl.1, hr.1, hnode⟩
  · have hfreq := htree.root_freq
    rwa [hroot] at hfreq
  · rw [← hroot]
    exact .inr (htree.treeValid hF)

/-- Settles O17: the one entry passes the check, and the merge loop runs zero times. -/
theorem buildOfSingleEntry : Obligations.BuildOfSingleEntry := by
  intro s e hft hpos hfit
  have hF : Buildable s.mem.ft := by simpa [Buildable, hft] using hpos
  have hsum : freqFits s.params (sumCounts s.mem.ft) = true := by simpa [hft, sumCounts] using hfit
  have htree : buildTree s.mem.ft = ([.leaf e.sym e.count], ⟨true, 0⟩) := by rw [hft]; rfl
  simpa [htree] using exec_build_of_fits hF hsum

/-! ## The merges (41_tree_builder.md R113, R114) -/

/-- A merge takes two members out of the queue and puts one in. -/
theorem mergeOnce_length {N N' : List NodeRec} {q q' : List Key} (h : mergeOnce N q = some (N', q')) :
    q'.length + 1 = q.length := by
  match q with
  | [] => cases h
  | [_] => cases h
  | a :: b :: q =>
    obtain rfl : pqInsert ⟨a.freq + b.freq, N.length⟩ q = q' := congrArg Prod.snd (Option.some.inj h)
    rw [pqInsert_length, List.length_cons, List.length_cons]

/-- Settles O18: each merged node of BUILD's tree was made of the two lowest waiting nodes. -/
theorem buildMergesTwoLowest : Obligations.BuildMergesTwoLowest := by
  refine ⟨fun N N' q q' => mergeOnce_length, fun s t h hok => ?_⟩
  have htree := builtTree_of_exec_build_ok h hok
  exact ⟨htree.length, htree.merged⟩

/-! ## Optimality (41_tree_builder.md R120) -/

/-- The codes that a prefix-free code gives to distinct symbols. -/
theorem PrefixFreeOn.pairwise_apart {A : List Symbol} {code : Symbol → List Digit}
    (h : PrefixFreeOn A code) (hA : A.Nodup) : (A.map code).Pairwise CodesApart := by
  rw [List.pairwise_map]
  exact hA.imp_of_mem fun ha hb hab => ⟨h _ ha _ hb hab, h _ hb _ ha hab.symm⟩

/-- The lengths of a prefix-free code satisfy Kraft's inequality. -/
theorem PrefixFreeOn.kraft_le_one {A : List Symbol} {code : Symbol → List Digit}
    (h : PrefixFreeOn A code) (hA : A.Nodup) : kraft ((A.map code).map List.length) ≤ 1 :=
  Machine.kraft_le_one _ (h.pairwise_apart hA) fun _ hc =>
    List.le_sum_of_mem (List.mem_map_of_mem (f := List.length) hc)

/-- A lower bound for the counts of a table bounds the total cost of every prefix-free code of its
symbols. -/
theorem LowerBound.le_totalCost {F : List FtEntry} {c : Nat} (h : LowerBound (F.map FtEntry.count) c)
    (hF : (F.map FtEntry.sym).Nodup) {code : Symbol → List Digit}
    (hcode : PrefixFreeOn (F.map FtEntry.sym) code) : c ≤ totalCost F code := by
  have hkraft := hcode.kraft_le_one hF
  have hcost := h (F.map fun e => (e.count, (code e.sym).length))
  simp only [List.map_map, Function.comp_def] at hkraft hcost
  simpa [Machine.cost, totalCost, Function.comp_def] using hcost (.refl _) hkraft

/-- Every symbol of the table has a path in BUILD's tree. -/
theorem BuiltTree.exists_leadsToLeaf {F : List FtEntry} {N : List NodeRec} {root : Root}
    (h : BuiltTree F N root) (hF : Buildable F) {a : Symbol} (ha : a ∈ F.map FtEntry.sym) :
    ∃ c, LeadsToLeaf N root.idx c a := by
  obtain ⟨e, he, rfl⟩ := List.mem_map.1 ha
  obtain ⟨i, hi⟩ := List.mem_iff_getElem?.1 he
  have hleaf := h.leaf hi
  obtain ⟨c, hc⟩ := (h.treeValid hF).reached (List.getElem?_eq_some_iff.1 hleaf).1
  exact ⟨c, i, e.count, hc, hleaf⟩

/-- Settles O19: the total cost of the tree's paths is the sum of the frequencies of the merged nodes
(`BuiltTree.cost`), and that sum bounds the cost of every prefix-free code (`buildTree_lowerBound`). -/
theorem buildMinimisesTotalCodeLength : Obligations.BuildMinimisesTotalCodeLength := by
  intro s t h hok
  have htree := builtTree_of_exec_build_ok h hok
  obtain ⟨hF, hnode, -⟩ := exec_build_ok h hok
  obtain ⟨T, htable, hwalk⟩ := execTable_of_valid (htree.treeValid hF)
  choose! code hcode using fun a => htree.exists_leadsToLeaf hF (a := a)
  have hpath : ∀ e ∈ s.mem.ft, LeadsToLeaf t.mem.node t.root.idx (code e.sym) e.sym := fun e he =>
    hcode e.sym (List.mem_map_of_mem he)
  refine ⟨_, code, htable, fun e he => hwalk.mem_root.2 (hpath e he), fun other hother => ?_⟩
  calc totalCost s.mem.ft code
    _ = ((t.mem.node.drop s.mem.ft.length).map nodeFreq).sum := htree.cost hF hpath
    _ = (((buildTree s.mem.ft).1.drop s.mem.ft.length).map nodeFreq).sum := by rw [hnode]
    _ ≤ totalCost s.mem.ft other := (buildTree_lowerBound hF.1).le_totalCost hF.2.2 hother

end Sys2Proof.Machine
end

section
/-! PROOFS of the statements about TABLE (42_code_table_generator.md): the table it writes, and that the
table always fits CT. -/

namespace Sys2Proof.Machine

/-! ## The entries (42_code_table_generator.md R131 to R133) -/

/-- TABLE writes the code table of the tree, where there is one. -/
theorem execTable_of_codeTable {s : State} {T : List CtEntry}
    (h : codeTable s.mem.node s.root = some T) :
    execTable s = .next { s with status := .ok, mem := { s.mem with ct := T } } := by
  obtain ⟨T', hT', e⟩ | ⟨hnone, -⟩ := execTable_cases s
  · obtain rfl := Option.some.inj (hT'.symm.trans h)
    exact e
  · cases hnone.symm.trans h

/-- The degenerate tree gives its symbol the empty code, whatever its frequency. -/
theorem codeTable_leaf (a : Symbol) (f : Nat) : codeTable [.leaf a f] ⟨true, 0⟩ = some [⟨a, []⟩] := rfl

/-- Settles O20: the walk of a valid tree records the root's paths to the leaves (`WalkOk`), one for each
leaf (`TreeValid.table_length`). -/
theorem tableRecordsLeafPaths : Obligations.TableRecordsLeafPaths := by
  refine ⟨fun s hnull => execTable_of_null hnull, fun s htree => ?_⟩
  obtain ⟨T, htable, hwalk⟩ := execTable_of_valid htree
  exact ⟨T, htable, htree.table_length hwalk, fun a c => hwalk.mem_root, hwalk.order⟩

/-- Settles O21: the walk from a root that is a leaf records it at once, and a null root is not walked. -/
theorem tableOfLeafRootAndNullRoot : Obligations.TableOfLeafRootAndNullRoot := by
  refine ⟨fun s a f hnode hroot => ?_, fun s hnull => execTable_of_null hnull⟩
  have htable : codeTable s.mem.node s.root = some [⟨a, []⟩] := by rw [hnode, hroot, codeTable_leaf]
  exact execTable_of_codeTable htable

/-! ## The table fits CT (42_code_table_generator.md R135) -/

theorem Memory.wf_fits_node {p : Params} {m : Memory} (h : m.wf p = true) :
    fits p.nodeMax m.node.length = true :=
  (Bool.and_eq_true_iff.1 (Memory.wf_iff.1 h .node)).1

/-- A valid tree of at most `2*K_MAX - 1` nodes has at most `K_MAX` leaves (00_scope.md R9). -/
theorem TreeValid.fits_kMax_leafCount {p : Params} {N : List NodeRec} {root : Root} (h : TreeValid N root)
    (hN : fits p.nodeMax N.length = true) : fits p.kMax (leafCount N) = true := by
  obtain ⟨hlen, hpos⟩ := h.leafCount_eq
  unfold Params.nodeMax at hN
  cases hk : p.kMax with
  | none => exact fits_none _
  | some k =>
    rw [hk, Option.map_some, fits_some] at hN
    rw [fits_some]
    omega

/-- `CODE_MAX` is `K_MAX - 1` (41_tree_builder.md R124). -/
theorem fits_codeMax_of_succ {p : Params} {n : Nat} (h : fits p.kMax (n + 1) = true) :
    fits p.codeMax n = true := by
  unfold Params.codeMax
  cases hk : p.kMax with
  | none => exact fits_none _
  | some k =>
    rw [hk, fits_some] at h
    rw [Option.map_some, fits_some]
    omega

/-- Settles O23: the null root's table is empty; a valid tree's has one entry for each leaf, and a code is
shorter than the table is long (`WalkOk.depth`). -/
theorem tableAlwaysEndsOk : Obligations.TableAlwaysEndsOk := by
  rintro s ⟨-, hmem, htree, -⟩
  obtain ⟨hroot, -⟩ | htree := htree
  · exact ⟨_, execTable_of_null (by rw [hroot]; rfl), rfl, fits_zero _, by simp⟩
  · obtain ⟨T, htable, hwalk⟩ := execTable_of_valid htree
    have hfit : fits s.params.kMax T.length = true := by
      rw [htree.table_length hwalk]
      exact htree.fits_kMax_leafCount (Memory.wf_fits_node hmem)
    refine ⟨_, htable, rfl, hfit, fun e he => fits_codeMax_of_succ (fits_mono ?_ hfit)⟩
    simpa using hwalk.depth e he

end Sys2Proof.Machine
end

section
/-! PROOFS of the statements about ENCODE (43_encoder.md): when it fails, and how many digits it writes. -/

namespace Sys2Proof.Machine

/-! ## The digits (43_encoder.md R140, R144) -/

/-- With distinct symbols in the table, the loop concatenates the codes of the entries. -/
theorem encodeSymbols_eq_flatMap {T : List CtEntry} {S : List Symbol} {code : Symbol → List Digit}
    (hT : (T.map CtEntry.sym).Nodup) (hcode : ∀ x ∈ S, (⟨x, code x⟩ : CtEntry) ∈ T) :
    encodeSymbols T S = some (S.flatMap code) :=
  encodeSymbols_eq_some fun x hx => lookupCode_of_mem hT (hcode x hx)

/-- Whatever the table, the digits the loop gives are codes of its entries, one for each symbol. -/
theorem exists_code_of_encodeSymbols {T : List CtEntry} {S : List Symbol} {E : List Digit}
    (h : encodeSymbols T S = some E) :
    ∃ code : Symbol → List Digit, (∀ x ∈ S, (⟨x, code x⟩ : CtEntry) ∈ T) ∧ E = S.flatMap code := by
  have hfound : ∀ x ∈ S, ∃ c, lookupCode T x = some c := fun x hx =>
    Option.ne_none_iff_exists'.1 fun hnone =>
      absurd (encodeSymbols_none.2 ⟨x, hx, hnone⟩) (by simp [h])
  choose! code hcode using hfound
  exact ⟨code, fun x hx => lookupCode_mem (hcode x hx),
    Option.some.inj (h.symm.trans (encodeSymbols_eq_some hcode))⟩

/-- The loop gives at most as many digits for each symbol as the longest code has. -/
theorem encodeSymbols_length_le {T : List CtEntry} {S : List Symbol} {E : List Digit} {c : Nat}
    (h : encodeSymbols T S = some E) (hT : ∀ e ∈ T, e.code.length ≤ c) : E.length ≤ S.length * c := by
  obtain ⟨code, hcode, rfl⟩ := exists_code_of_encodeSymbols h
  exact flatMap_length_le fun x hx => hT _ (hcode x hx)

/-- The digits of a sequence, summed symbol by symbol, are the total cost of its occurrence table. -/
theorem sum_code_length_eq_totalCost (S : List Symbol) (code : Symbol → List Digit) :
    (S.map fun x => (code x).length).sum = totalCost (occurrenceTable S) code := by
  have hsyms : S.eraseDups.toFinset = S.toFinset := by
    ext a
    simp
  calc (S.map fun x => (code x).length).sum
    _ = ∑ a ∈ S.toFinset, S.count a * (code a).length := by
      simpa using Finset.sum_list_map_count S fun x => (code x).length
    _ = (S.eraseDups.map fun a => S.count a * (code a).length).sum := by
      rw [← hsyms, List.sum_toFinset _ (nodup_eraseDups S)]
    _ = totalCost (occurrenceTable S) code := by simp [totalCost, occurrenceTable, Function.comp_def]

/-! ## How ENCODE ends -/

/-- ENCODE when every symbol has a code, `E` being the digits. -/
theorem exec_encode_of_digits {s : State} {E : List Digit}
    (h : encodeSymbols s.mem.ct s.mem.sym = some E) :
    exec .encode s = .next (if fits s.params.mMax E.length then
      { s with status := .ok, mem := { s.mem with bits := E } }
      else { s with status := .capacity, mem := { s.mem with bits := [] } }) := by
  obtain ⟨E', h', hfit, e⟩ | ⟨h', -⟩ | ⟨E', h', hover, e⟩ := execEncode_cases s <;> cases h'.symm.trans h
  · rw [if_pos hfit]
    exact e
  · rw [hover]
    exact e

/-- No digits always fit. -/
theorem exec_encode_of_no_digits {s : State} (h : encodeSymbols s.mem.ct s.mem.sym = some []) :
    exec .encode s = .next { s with status := .ok, mem := { s.mem with bits := [] } } := by
  rw [exec_encode_of_digits h, List.length_nil, if_pos (fits_zero _)]

/-- ENCODE when some symbol has no entry. -/
theorem exec_encode_of_missing {s : State} (h : ∃ x ∈ s.mem.sym, ∀ e ∈ s.mem.ct, e.sym ≠ x) :
    exec .encode s = .next { s with status := .lookupError, mem := { s.mem with bits := [] } } := by
  obtain ⟨x, hx, hmissing⟩ := h
  have hnone : encodeSymbols s.mem.ct s.mem.sym = none :=
    encodeSymbols_none.2 ⟨x, hx, lookupCode_none.2 hmissing⟩
  obtain ⟨E, h', -⟩ | ⟨-, e⟩ | ⟨E, h', -⟩ := execEncode_cases s
  · cases h'.symm.trans hnone
  · exact e
  · cases h'.symm.trans hnone

/-- An ENCODE that ends OK leaves the loop's digits in BITS. -/
theorem exec_encode_ok {s t : State} (h : exec .encode s = .next t) (hok : t.status = .ok) :
    encodeSymbols s.mem.ct s.mem.sym = some t.mem.bits := by
  obtain ⟨E, hE, -, e⟩ | ⟨-, e⟩ | ⟨-, -, -, e⟩ := execEncode_cases s <;>
    obtain rfl := Host.Outcome.next.inj (e.symm.trans h)
  · exact hE
  · cases hok
  · cases hok

/-! ## Failures (43_encoder.md R141, R145) -/

theorem contentsFit_ct {p : Params} {T : List CtEntry} :
    contentsFit p (.ct T) = true ↔ fits p.kMax T.length = true ∧ ∀ e ∈ T, ctEntryFits p e = true := by
  simp [contentsFit, bufferCap, contentsBuffer, contentsLength, elementsFit]

/-- "With `M_MAX >= N_MAX * CODE_MAX`" the digits always fit (43_encoder.md R145). -/
theorem encodeSymbols_fits_of_wf {p : Params} {mem : Memory} {E : List Digit} {m n c : Nat}
    (h : encodeSymbols mem.ct mem.sym = some E) (hwf : mem.wf p = true) (hm : p.mMax = some m)
    (hn : p.nMax = some n) (hc : p.codeMax = some c) (hroom : n * c ≤ m) :
    fits p.mMax E.length = true := by
  obtain ⟨hlen, -⟩ := contentsFit_sym.1 (Memory.wf_iff.1 hwf .sym)
  obtain ⟨-, hct⟩ := contentsFit_ct.1 (Memory.wf_iff.1 hwf .ct)
  have hcode : ∀ e ∈ mem.ct, e.code.length ≤ c := fun e he => by
    obtain ⟨-, hfit⟩ := Bool.and_eq_true_iff.1 (hct e he)
    rwa [hc, fits_some] at hfit
  rw [hn, fits_some] at hlen
  rw [hm, fits_some]
  calc E.length
    _ ≤ mem.sym.length * c := encodeSymbols_length_le h hcode
    _ ≤ n * c := Nat.mul_le_mul_right c hlen
    _ ≤ m := hroom

/-- Settles O25: a missing symbol stops the loop whatever the other codes are; with none missing Capacity is
decided by the length alone, which R145's condition bounds. -/
theorem encodeFailures : Obligations.EncodeFailures := by
  refine ⟨fun s => exec_encode_of_missing, fun s code hT hcode hover => ?_,
    fun s m n c hwf hm hn hc hroom => ?_⟩
  · rw [exec_encode_of_digits (encodeSymbols_eq_flatMap hT hcode), hover]
    rfl
  · obtain ⟨_, -, -, e⟩ | ⟨-, e⟩ | ⟨E, hE, hover, -⟩ := execEncode_cases s
    · exact ⟨_, e, by simp⟩
    · exact ⟨_, e, by simp⟩
    · have hfit := encodeSymbols_fits_of_wf hE hwf hm hn hc hroom
      exact absurd hfit (by simp [hover])

/-! ## The length of BITS (43_encoder.md R144) -/

/-- `BITS_LEN` is the sum of the code lengths over SYM. -/
theorem exec_encode_bits_length {s t : State} {code : Symbol → List Digit}
    (hT : (s.mem.ct.map CtEntry.sym).Nodup) (hcode : ∀ x ∈ s.mem.sym, (⟨x, code x⟩ : CtEntry) ∈ s.mem.ct)
    (h : exec .encode s = .next t) (hok : t.status = .ok) :
    t.mem.bits.length = (s.mem.sym.map fun x => (code x).length).sum := by
  have hbits := (encodeSymbols_eq_flatMap hT hcode).symm.trans (exec_encode_ok h hok)
  rw [← Option.some.inj hbits, List.length_flatMap]

/-- No command but CLEAR writes SYM (20_memory.md R61). -/
theorem exec_keeps_sym {i : Instr} {s t : State} (hi : i ≠ .clear) (h : exec i s = .next t) :
    t.mem.sym = s.mem.sym := by
  cases i with
  | clear => exact absurd rfl hi
  | count =>
    obtain ⟨-, e⟩ | ⟨-, e⟩ := execCount_cases s <;> (cases e.symm.trans h; rfl)
  | build =>
    obtain ⟨-, -, e⟩ | ⟨-, e⟩ | ⟨-, -, e⟩ := execBuild_cases s <;> (cases e.symm.trans h; rfl)
  | table =>
    obtain ⟨_, -, e⟩ | ⟨-, e⟩ := execTable_cases s <;> cases e.symm.trans h
    rfl
  | encode =>
    obtain ⟨_, -, -, e⟩ | ⟨-, e⟩ | ⟨_, -, -, e⟩ := execEncode_cases s <;> (cases e.symm.trans h; rfl)
  | decode =>
    obtain ⟨_, -, -, e⟩ | ⟨-, e⟩ | ⟨_, -, -, e⟩ | ⟨-, e⟩ := execDecode_cases s <;>
      cases e.symm.trans h
    all_goals rfl

/-- The symbols of the table TABLE derives from a tree that BUILD made are distinct. -/
theorem table_of_built_syms_nodup {t u v : State} (hbuild : exec .build t = .next u)
    (hok : u.status = .ok) (htable : exec .table u = .next v) : (v.mem.ct.map CtEntry.sym).Nodup := by
  obtain ⟨hF, -, -⟩ := exec_build_ok hbuild hok
  have htree := (builtTree_of_exec_build_ok hbuild hok).treeValid hF
  obtain ⟨T, e, hwalk⟩ := execTable_of_valid htree
  cases e.symm.trans htable
  exact htree.table_syms_nodup hwalk

/-- Settles O26: the digits are the codes in symbol order; COUNT, BUILD and TABLE leave SYM, so that FT
counts the symbols ENCODE reads; and the loop over an empty SYM gives no digits. -/
theorem encodeLengthLaw : Obligations.EncodeLengthLaw := by
  refine ⟨fun s t code => exec_encode_bits_length, ?_,
    fun s hempty => exec_encode_of_no_digits (by rw [hempty]; rfl)⟩
  intro s t u v w code hcount htok hbuild huok htable hencode hwok hcode
  have hft := execCount_ft_of_ok hcount htok
  have hsym : v.mem.sym = s.mem.sym :=
    calc v.mem.sym
      _ = u.mem.sym := exec_keeps_sym (by decide) htable
      _ = t.mem.sym := exec_keeps_sym (by decide) hbuild
      _ = s.mem.sym := exec_keeps_sym (by decide) hcount
  have hentries : ∀ x ∈ v.mem.sym, (⟨x, code x⟩ : CtEntry) ∈ v.mem.ct := fun x hx =>
    hcode ⟨x, s.mem.sym.count x⟩ (hft ▸ mem_occurrenceTable.2 ⟨hsym ▸ hx, rfl⟩)
  calc w.mem.bits.length
    _ = (v.mem.sym.map fun x => (code x).length).sum :=
      exec_encode_bits_length (table_of_built_syms_nodup hbuild huok htable) hentries hencode hwok
    _ = totalCost t.mem.ft code := by rw [hsym, hft, sum_code_length_eq_totalCost]

/-! ## The one-entry table (43_encoder.md R142) -/

/-- Settles O27: the entry's symbol adds no digits, and any other symbol has no entry. -/
theorem encodeWithDegenerateTable : Obligations.EncodeWithDegenerateTable := by
  refine fun s a hct => ⟨fun hall => exec_encode_of_no_digits ?_, ?_⟩
  · have hcode : ∀ x ∈ s.mem.sym, (⟨x, []⟩ : CtEntry) ∈ s.mem.ct := fun x hx => by simp [hct, hall x hx]
    rw [encodeSymbols_eq_flatMap (by simp [hct]) hcode, List.flatMap_eq_nil_iff.2 fun _ _ => rfl]
  · rintro ⟨x, hx, hne⟩
    exact exec_encode_of_missing ⟨x, hx, by simpa [hct] using hne.symm⟩

end Sys2Proof.Machine
end

section
/-! PROOFS of the statements about DECODE (44_decoder.md): what it makes of the digits at each kind of root,
and when the stream is malformed. -/

namespace Sys2Proof.Machine

/-! ## How DECODE ends -/

/-- DECODE when the digits give the symbols `D` and OUT has room for them. -/
theorem exec_decode_of_fit {s : State} {D : List Symbol}
    (h : decodeStream s.mem.node s.root s.mem.bits = some (some D))
    (hfit : fits s.params.oMax D.length = true) :
    exec .decode s = .next { s with status := .ok, mem := { s.mem with out := D } } := by
  rw [exec, execDecode_of_symbols h, if_pos hfit]

/-- DECODE ends with MalformedStream only where the digits are malformed. -/
theorem decodeStream_of_exec_malformed {s t : State} (h : exec .decode s = .next t)
    (hstatus : t.status = .malformedStream) :
    decodeStream s.mem.node s.root s.mem.bits = some none := by
  obtain ⟨D, -, -, e⟩ | ⟨hnone, -⟩ | ⟨D, -, -, e⟩ | ⟨-, e⟩ := execDecode_cases s
  case inr.inl => exact hnone
  all_goals cases e.symm.trans h
  all_goals cases hstatus

/-! ## Malformed streams (44_decoder.md R154) -/

/-- R154's three cases: no concatenation of codes at an internal root, or digits where the root is a leaf
or null. -/
def MalformedDigits (N : List NodeRec) (root : Root) (E : List Digit) : Prop :=
  (root.valid = true ∧ 2 ≤ leafCount N ∧ ∀ S, ¬ Parses N root.idx E S) ∨
    (root.valid = true ∧ leafCount N = 1 ∧ E ≠ []) ∨ (root.valid = false ∧ E ≠ [])

/-- The cases of R154 are the kinds of root at which DECODE's reading of the digits can fail. -/
theorem TreeWf.decodeStream_malformed_iff {N : List NodeRec} {root : Root} (h : TreeWf N root)
    (E : List Digit) : decodeStream N root E = some none ↔ MalformedDigits N root E := by
  unfold MalformedDigits
  obtain ⟨hnull, e⟩ | ⟨a, f, htree, hcount, -, e⟩ | ⟨f, l, r, htree, hcount, -, hparse⟩ :=
    decodeStream_cases h E
  · simp [hnull, e]
  · simp [htree.1, hcount, e]
  · have hne : leafCount N ≠ 1 := by omega
    obtain ⟨S, hS, e⟩ | ⟨hno, e⟩ := hparse
    · have hsome : ¬ ∀ S, ¬ Parses N root.idx E S := fun hno => hno S hS
      simp [htree.1, hne, hsome, e]
    · simp [htree.1, hcount, hno, e]

/-- Settles O31: DECODE ends so exactly where its reading of the digits fails, and on a well-formed tree
that is R154's three cases. -/
theorem decodeMalformedExactly : Obligations.DecodeMalformedExactly := fun s htree =>
  have hiff := htree.decodeStream_malformed_iff s.mem.bits
  ⟨fun hcases => execDecode_of_malformed (hiff.2 hcases),
    fun _ h hstatus => hiff.1 (decodeStream_of_exec_malformed h hstatus)⟩

/-! ## Roots without a walk (44_decoder.md R151, R152) -/

/-- At the null root the digits are not walked, whatever NODE holds. -/
theorem decodeStream_of_null {N : List NodeRec} {root : Root} (h : root.valid = false) (E : List Digit) :
    decodeStream N root E = some (if E = [] then some [] else none) := by
  cases E <;> simp [decodeStream, h]

/-- Settles O28: only the empty stream is one of the null root. -/
theorem decodeWithNullRoot : Obligations.DecodeWithNullRoot := by
  intro s hnull
  have hstream := decodeStream_of_null (N := s.mem.node) hnull s.mem.bits
  refine ⟨fun hbits => exec_decode_of_fit ?_ (fits_zero _), fun hbits => execDecode_of_malformed ?_⟩
  · rw [hstream, if_pos hbits]
  · rw [hstream, if_neg hbits]

/-- The single leaf needs no digits, whatever its frequency. -/
theorem decodeStream_leaf (a : Symbol) (f : Nat) (E : List Digit) :
    decodeStream [.leaf a f] ⟨true, 0⟩ E = some (if E = [] then some (List.replicate f a) else none) := by
  cases E <;> rfl

/-- Settles O29: only the empty stream is one of the single leaf, and its symbols are the leaf's. -/
theorem decodeDegenerateTree : Obligations.DecodeDegenerateTree := by
  intro s a f hnode hroot
  have hstream := decodeStream_leaf a f s.mem.bits
  rw [← hnode, ← hroot] at hstream
  refine ⟨fun hbits hfit => exec_decode_of_fit ?_ ?_, fun hbits => execDecode_of_malformed ?_⟩
  · rw [hstream, if_pos hbits]
  · rwa [List.length_replicate]
  · rw [hstream, if_neg hbits]

end Sys2Proof.Machine
end

section
/-! PROOFS of the statements about the system unit (45_system.md): a word that is no command, the host's
reads, and CLEAR. -/

namespace Sys2Proof

/-! ## Words that are no command (30_encoding.md R83) -/

theorem decodeOp_eq_error_iff {op : BitVec 3} {e : DecodeReject} :
    decodeOp op = .error e ↔ e = .unassignedOpcode ∧ (op = 0b110#3 ∨ op = 0b111#3) := by
  revert op
  cases e <;> decide

/-- The decoder rejects a word for its reserved field or for its opcode, and for nothing else. -/
theorem exists_decode_eq_error_iff {w : Byte} :
    (∃ e, decode w = .error e) ↔ rsvField w ≠ 0#5 ∨ opField w = 0b110#3 ∨ opField w = 0b111#3 := by
  by_cases hrsv : rsvField w = 0#5 <;> simp [decode, hrsv, decodeOp_eq_error_iff]

end Sys2Proof

namespace Sys2Proof.Machine

/-! ## One step, by the host's transaction (45_system.md R168, R169) -/

section
variable {s : State} {rest : List Transaction}

theorem step_cmd_of_decode_error {w : Byte} {e : DecodeReject} (hs : s.script = .cmd w :: rest)
    (hw : decode w = .error e) : step s = .next (illegalCommand { s with script := rest }) := by
  simp only [step, fetch_cons hs, hw]

theorem step_get {b : Buffer} (hs : s.script = .get b :: rest) :
    step s = hostGet b { s with script := rest } := by
  simp only [step, fetch_cons hs]

theorem step_readReg {r : Reg} (hs : s.script = .readReg r :: rest) :
    step s = hostReadReg r { s with script := rest } := by
  simp only [step, fetch_cons hs]

theorem step_readCmd (hs : s.script = .readCmd :: rest) : step s = .refused .readOfCmd := by
  simp only [step, fetch_cons hs]

end

/-- Settles O4: the decoder rejects the word, and the step of a rejected word writes STATUS alone. -/
theorem illegalWordOnlySetsStatus : Obligations.IllegalWordOnlySetsStatus := by
  intro s w rest hs hw
  obtain ⟨e, he⟩ := exists_decode_eq_error_iff.2 hw
  exact step_cmd_of_decode_error hs he

/-- Settles O7: the replies are `Memory.contents` and `State.regVal`, by buffer and by register. -/
theorem hostReadsReturnAndChangeNothing : Obligations.HostReadsReturnAndChangeNothing := by
  refine ⟨fun s b rest hs => ?get, fun s r rest hs => ?readReg, fun s rest hs => step_readCmd hs⟩
  case get => rw [step_get hs]; cases b <;> rfl
  case readReg => rw [step_readReg hs]; cases r <;> rfl

/-- Settles O11: CLEAR empties the same fields that reset does. -/
theorem clearRestoresReset : Obligations.ClearRestoresReset := fun s => execClear_eq s

end Sys2Proof.Machine
end

section
/-! PROOFS of the statement about the round trip (46_pipeline_properties.md R182): COUNT, BUILD, TABLE, ENCODE
and DECODE in turn recover SYM in OUT. -/

namespace Sys2Proof.Machine

/-! ## Every pass completes -/

/-- The five commands in turn, each from the state the one before it left. -/
structure PipelineRun (s t1 t2 t3 t4 t5 : State) : Prop where
  count : exec .count s = .next t1
  build : exec .build t1 = .next t2
  table : exec .table t2 = .next t3
  encode : exec .encode t3 = .next t4
  decode : exec .decode t4 = .next t5

theorem exec_table_completes {s : State} (h : TreeWf s.mem.node s.root) : ∃ t, exec .table s = .next t := by
  obtain ⟨hroot, -⟩ | htree := h
  · exact ⟨_, execTable_of_null (by rw [hroot]; rfl)⟩
  · obtain ⟨T, e, -⟩ := execTable_of_valid htree
    exact ⟨_, e⟩

/-- On a well-formed tree DECODE reads any digits, as symbols or as a malformed stream. -/
theorem TreeWf.exists_decodeStream {N : List NodeRec} {root : Root} (h : TreeWf N root) (E : List Digit) :
    ∃ D, decodeStream N root E = some D := by
  obtain ⟨-, e⟩ | ⟨_, _, -, -, -, e⟩ | ⟨_, _, _, -, -, -, ⟨_, -, e⟩ | ⟨-, e⟩⟩ := decodeStream_cases h E <;>
    exact ⟨_, e⟩

theorem exec_decode_completes {s : State} (h : TreeWf s.mem.node s.root) :
    ∃ t, exec .decode s = .next t := by
  obtain ⟨D, hD⟩ := h.exists_decodeStream s.mem.bits
  exact ⟨complete (decodeStatus s.params D) .out (fun u => u.store (.out (D.getD []))) s,
    by simp only [exec, execDecode, hD]⟩

/-- BUILD leaves a well-formed tree whatever it finds, and TABLE and ENCODE leave that tree. -/
theorem exists_pipelineRun (s : State) : ∃ t1 t2 t3 t4 t5, PipelineRun s t1 t2 t3 t4 t5 := by
  obtain ⟨t1, hcount⟩ : ∃ t, exec .count s = .next t := ⟨_, rfl⟩
  obtain ⟨t2, hbuild⟩ : ∃ t, exec .build t1 = .next t := ⟨_, rfl⟩
  obtain ⟨htree, -⟩ := execBuild_treeWf_ct hbuild
  obtain ⟨t3, htable⟩ := exec_table_completes htree
  obtain ⟨-, hnode3, hroot3⟩ := execTable_codeTable htable
  obtain ⟨t4, hencode⟩ : ∃ t, exec .encode t3 = .next t := ⟨_, rfl⟩
  obtain ⟨hnode4, hroot4, -⟩ := execEncode_sameTrees hencode
  obtain ⟨t5, hdecode⟩ := exec_decode_completes (s := t4) (by rwa [hnode4, hroot4, hnode3, hroot3])
  exact ⟨t1, t2, t3, t4, t5, hcount, hbuild, htable, hencode, hdecode⟩

/-! ## Encoding and decoding with the tree of a sequence -/

theorem TreeValid.walkOk {N : List NodeRec} {root : Root} (h : TreeValid N root) {T : List CtEntry}
    (hT : Machine.codeTable N root = some T) : WalkOk N root.idx [] T := by
  obtain ⟨T', hT', hwalk⟩ := h.codeTable
  obtain rfl := Option.some.inj (hT.symm.trans hT')
  exact hwalk

/-- The codes of a sequence decode to it. At a root that is a leaf there are no digits, and the number of
symbols is the leaf's frequency (44_decoder.md R152). -/
theorem TreeValid.decodeStream_flatMap {N : List NodeRec} {root : Root} (h : TreeValid N root)
    {S : List Symbol} {code : Symbol → List Digit} (hcode : ∀ x ∈ S, LeadsToLeaf N root.idx (code x) x)
    (hfreq : freqAt N root.idx = S.length) : decodeStream N root (S.flatMap code) = some (some S) := by
  obtain ⟨hnull, -⟩ | ⟨a, f, -, -, hleaf, e⟩ | ⟨f, l, r, -, -, hint, hparse⟩ :=
    decodeStream_cases (.inr h) (S.flatMap code)
  · exact absurd h.1 (by simp [hnull])
  · have hpath : ∀ x ∈ S, code x = [] ∧ x = a := fun x hx => (leadsToLeaf_leaf hleaf).1 (hcode x hx)
    have hdigits : S.flatMap code = [] := List.flatMap_eq_nil_iff.2 fun x hx => (hpath x hx).1
    have hlen : f = S.length := (freqAt_of_getElem? hleaf).symm.trans hfreq
    have hsyms : S = List.replicate f a :=
      List.eq_replicate_iff.2 ⟨hlen.symm, fun x hx => (hpath x hx).2⟩
    rw [e, if_pos hdigits, ← hsyms]
  · have hS := Parses.of_codes hcode
    obtain ⟨S', hS', e⟩ | ⟨hno, -⟩ := hparse
    · rw [e, Parses.unique hint hS' hS]
    · exact absurd hS (hno S)

/-- BUILD's tree has one leaf for each entry of the table. -/
theorem BuiltTree.leafCount_eq {F : List FtEntry} {N : List NodeRec} {root : Root} (h : BuiltTree F N root)
    (hF : F ≠ []) : leafCount N = F.length := by
  have hpos := List.length_pos_of_ne_nil hF
  rw [leafCount, h.length]
  omega

/-- The heart of R182: with the tree of a sequence's occurrence table and its code table, every symbol has a
code, the digits decode to the sequence, and each code is shorter than the number of distinct symbols. -/
theorem BuiltTree.roundTrip {S : List Symbol} {N : List NodeRec} {root : Root} {T : List CtEntry}
    (h : BuiltTree (occurrenceTable S) N root) (hS : S ≠ []) (hT : codeTable N root = some T) :
    ∃ E, encodeSymbols T S = some E ∧ E.length ≤ S.length * (S.eraseDups.length - 1) ∧
      decodeStream N root E = some (some S) := by
  have hF := occurrenceTable_buildable hS
  have htree := h.treeValid hF
  have hwalk := htree.walkOk hT
  have hpath : ∀ x ∈ S, ∃ c, LeadsToLeaf N root.idx c x := fun x hx =>
    h.exists_leadsToLeaf hF (by rwa [occurrenceTable_syms, mem_eraseDups])
  choose! code hcode using hpath
  have hE : encodeSymbols T S = some (S.flatMap code) :=
    encodeSymbols_eq_flatMap (htree.table_syms_nodup hwalk) fun x hx => hwalk.mem_root.2 (hcode x hx)
  have hlen : T.length = S.eraseDups.length := by
    rw [htree.table_length hwalk, h.leafCount_eq hF.1, ← occurrenceTable_syms, List.length_map]
  refine ⟨_, hE, encodeSymbols_length_le hE fun e he => ?_, htree.decodeStream_flatMap hcode ?_⟩
  · have hdepth := hwalk.depth e he
    simp only [List.length_nil] at hdepth
    omega
  · rw [h.root_freq, occurrenceTable_sum]

/-! ## The statuses of a pass -/

theorem complete_params {st : Status} {d : Buffer} {write : State → State} {s : State}
    (hwrite : (write s).params = s.params) : (complete st d write s).params = s.params := by
  obtain ⟨-, e⟩ | ⟨-, e⟩ := complete_cases st d write s
  · rw [e]
    exact hwrite
  · rw [e]
    obtain ⟨-, hparams, -⟩ := raise_frame st d s
    exact hparams

/-- No command changes the parameters (70_reset_and_hazards.md R222). -/
theorem exec_keeps_params {i : Instr} {s t : State} (h : exec i s = .next t) : t.params = s.params := by
  cases i with
  | clear => cases h; rfl
  | count | build | encode =>
    obtain rfl := Host.Outcome.next.inj h
    exact complete_params rfl
  | table =>
    obtain ⟨_, -, e⟩ | ⟨-, e⟩ := execTable_cases s <;> cases e.symm.trans h
    rfl
  | decode =>
    obtain ⟨_, -, -, e⟩ | ⟨-, e⟩ | ⟨_, -, -, e⟩ | ⟨-, e⟩ := execDecode_cases s <;>
      cases e.symm.trans h
    all_goals rfl

/-- A command whose source-defined outcome is OK can fail with Capacity only (60_exceptions.md R207). -/
theorem ok_of_ne_capacity {st : Status} {b : Bool} (h : st = withCapacity .ok b) (hne : st ≠ .capacity) :
    st = .ok := by
  subst h
  cases b
  · exact absurd rfl hne
  · rfl

theorem exec_build_status {s t : State} (hF : Buildable s.mem.ft) (h : exec .build s = .next t) :
    t.status = withCapacity .ok (freqFits s.params (sumCounts s.mem.ft)) := by
  obtain ⟨-, hfit, e⟩ | ⟨hnot, -⟩ | ⟨-, hover, e⟩ := execBuild_cases s
  · cases e.symm.trans h
    rw [hfit]; rfl
  · exact absurd hF hnot
  · cases e.symm.trans h
    rw [hover]; rfl

theorem exec_encode_status {s t : State} {E : List Digit} (hE : encodeSymbols s.mem.ct s.mem.sym = some E)
    (h : exec .encode s = .next t) : t.status = withCapacity .ok (fits s.params.mMax E.length) := by
  obtain rfl := Host.Outcome.next.inj h
  rw [complete_status, hE]
  rfl

/-- DECODE when the digits give the symbols `D`. -/
theorem exec_decode_status {s t : State} {D : List Symbol}
    (hD : decodeStream s.mem.node s.root s.mem.bits = some (some D)) (h : exec .decode s = .next t) :
    t.status = withCapacity .ok (fits s.params.oMax D.length) := by
  simp only [exec, execDecode, hD] at h
  obtain rfl := Host.Outcome.next.inj h
  exact complete_status

/-- A DECODE that ends OK leaves the symbols it read in OUT. -/
theorem exec_decode_out_of_ok {s t : State} (h : exec .decode s = .next t) (hok : t.status = .ok) :
    decodeStream s.mem.node s.root s.mem.bits = some (some t.mem.out) := by
  obtain ⟨D, hD, -, e⟩ | ⟨-, e⟩ | ⟨_, -, -, e⟩ | ⟨-, e⟩ := execDecode_cases s <;> cases e.symm.trans h
  · exact hD
  · cases hok
  · cases hok

namespace PipelineRun

variable {s t1 t2 t3 t4 t5 : State} (h : PipelineRun s t1 t2 t3 t4 t5)
include h

/-- COUNT, BUILD and TABLE leave SYM. -/
theorem sym_table : t3.mem.sym = s.mem.sym :=
  calc t3.mem.sym
    _ = t2.mem.sym := exec_keeps_sym (by decide) h.table
    _ = t1.mem.sym := exec_keeps_sym (by decide) h.build
    _ = s.mem.sym := exec_keeps_sym (by decide) h.count

/-- The whole pass leaves SYM. -/
theorem sym_decode : t5.mem.sym = s.mem.sym :=
  calc t5.mem.sym
    _ = t4.mem.sym := exec_keeps_sym (by decide) h.decode
    _ = t3.mem.sym := exec_keeps_sym (by decide) h.encode
    _ = s.mem.sym := h.sym_table

theorem params_count : t1.params = s.params := exec_keeps_params h.count

theorem params_table : t3.params = s.params :=
  (exec_keeps_params h.table).trans ((exec_keeps_params h.build).trans h.params_count)

theorem params_encode : t4.params = s.params := (exec_keeps_params h.encode).trans h.params_table

theorem count_status : t1.status = withCapacity .ok (tableFits s.params (occurrenceTable s.mem.sym)) := by
  obtain rfl := Host.Outcome.next.inj ((execCount_eq s).symm.trans h.count)
  exact complete_status

/-- After COUNT the sum BUILD checks is the length of SYM (40_frequency_counter.md R101 (c)). -/
theorem build_status (hne : s.mem.sym ≠ []) (ok1 : t1.status = .ok) :
    t2.status = withCapacity .ok (freqFits s.params s.mem.sym.length) := by
  have hft := execCount_ft_of_ok h.count ok1
  rw [exec_build_status (hft ▸ occurrenceTable_buildable hne) h.build, hft, occurrenceTable_sum,
    h.params_count]

theorem table_status : t3.status = .ok := by
  obtain ⟨_, -, e⟩ | ⟨-, e⟩ := execTable_cases t2 <;> cases e.symm.trans h.table
  rfl

/-- After COUNT, BUILD and TABLE the symbols have digits that decode to them. -/
theorem exists_digits (hne : s.mem.sym ≠ []) (ok1 : t1.status = .ok) (ok2 : t2.status = .ok) :
    ∃ E, encodeSymbols t3.mem.ct t3.mem.sym = some E ∧
      E.length ≤ s.mem.sym.length * (s.mem.sym.eraseDups.length - 1) ∧
      decodeStream t4.mem.node t4.root E = some (some s.mem.sym) := by
  have htree : BuiltTree (occurrenceTable s.mem.sym) t2.mem.node t2.root := by
    rw [← execCount_ft_of_ok h.count ok1]
    exact builtTree_of_exec_build_ok h.build ok2
  obtain ⟨hT, hnode3, hroot3⟩ := execTable_codeTable h.table
  obtain ⟨hnode4, hroot4, -⟩ := execEncode_sameTrees h.encode
  rw [h.sym_table, hnode4, hroot4, hnode3, hroot3]
  exact htree.roundTrip hne hT

theorem encode_status {E : List Digit} (hE : encodeSymbols t3.mem.ct t3.mem.sym = some E) :
    t4.status = withCapacity .ok (fits s.params.mMax E.length) := by
  rw [exec_encode_status hE h.encode, h.params_table]

/-- An ENCODE that ends OK hands its digits to DECODE. -/
theorem decodeStream_bits {E : List Digit} {D : List Symbol}
    (hE : encodeSymbols t3.mem.ct t3.mem.sym = some E)
    (hD : decodeStream t4.mem.node t4.root E = some (some D)) (ok4 : t4.status = .ok) :
    decodeStream t4.mem.node t4.root t4.mem.bits = some (some D) := by
  rwa [← Option.some.inj (hE.symm.trans (exec_encode_ok h.encode ok4))]

/-- A pass over a non-empty SYM that meets no Capacity ends each command OK, and OUT is SYM. -/
theorem recovers (hne : s.mem.sym ≠ []) (h1 : t1.status ≠ .capacity) (h2 : t2.status ≠ .capacity)
    (h4 : t4.status ≠ .capacity) (h5 : t5.status ≠ .capacity) :
    t1.status = .ok ∧ t2.status = .ok ∧ t4.status = .ok ∧ t5.status = .ok ∧ t5.mem.out = s.mem.sym := by
  have ok1 := ok_of_ne_capacity h.count_status h1
  have ok2 := ok_of_ne_capacity (h.build_status hne ok1) h2
  obtain ⟨E, hE, -, hD⟩ := h.exists_digits hne ok1 ok2
  have ok4 := ok_of_ne_capacity (h.encode_status hE) h4
  have hbits := h.decodeStream_bits hE hD ok4
  have ok5 := ok_of_ne_capacity (exec_decode_status hbits h.decode) h5
  have hout := (exec_decode_out_of_ok h.decode ok5).symm.trans hbits
  exact ⟨ok1, ok2, ok4, ok5, Option.some.inj (Option.some.inj hout)⟩

/-- R182's "finite ones large enough": with room each result fits where it is written. -/
theorem all_ok_of_room (hne : s.mem.sym ≠ []) (hroom : RoomFor s.params s.mem.sym) :
    t1.status = .ok ∧ t2.status = .ok ∧ t4.status = .ok ∧ t5.status = .ok := by
  obtain ⟨hdistinct, hfreq, hdigits, hsymbols⟩ := hroom
  have hcounts : ∀ a ∈ s.mem.sym, freqFits s.params (s.mem.sym.count a) = true := fun a _ =>
    freqFits_mono List.count_le_length hfreq
  have ok1 : t1.status = .ok := by
    rw [h.count_status, tableFits_occurrenceTable.2 ⟨hdistinct, hcounts⟩]
    rfl
  have ok2 : t2.status = .ok := by
    rw [h.build_status hne ok1, hfreq]
    rfl
  obtain ⟨E, hE, hlen, hD⟩ := h.exists_digits hne ok1 ok2
  have ok4 : t4.status = .ok := by
    rw [h.encode_status hE, fits_mono hlen hdigits]
    rfl
  refine ⟨ok1, ok2, ok4, ?_⟩
  rw [exec_decode_status (h.decodeStream_bits hE hD ok4) h.decode, h.params_encode, hsymbols]
  rfl

end PipelineRun

/-! ## The empty sequence (46_pipeline_properties.md R180, R186) -/

theorem hostPut_empty_sym (s : State) : hostPut (.sym []) s = .next (s.store (.sym [])) := by
  simp [hostPut, putRefusal, contentsBuffer, contentsLength, hostWritable, elementsFit, fits_zero]

/-- COUNT of an empty SYM is an empty table, which fits any FT. -/
theorem exec_count_of_empty {s : State} (hsym : s.mem.sym = []) :
    exec .count s = .next { s with status := .ok, mem := { s.mem with ft := [] } } := by
  have hfits : tableFits s.params (occurrenceTable []) = true :=
    tableFits_occurrenceTable.2 ⟨fits_zero _, by simp⟩
  obtain ⟨-, e⟩ | ⟨hover, -⟩ := execCount_cases s
  · rw [hsym] at e
    exact e
  · rw [hsym, hfits] at hover
    cases hover

theorem runScript_cons {t : Transaction} {ts : List Transaction} {s u : State}
    (h : step (s.load [t]) = .next u) : runScript (t :: ts) s = runScript ts u := by
  rw [runScript, h]

theorem step_load_put (c : Contents) (s : State) : step (s.load [.put c]) = hostPut c s := by
  rw [step, fetch_load]

theorem step_load_readReg (r : Reg) (s : State) :
    step (s.load [.readReg r]) = .next (s.reply (.reg (s.regVal r))) := by
  rw [step, fetch_load]
  rfl

/-- "Empty input short-circuits" (46_pipeline_properties.md R180): after COUNT the host reads FT_LEN 0 and
starts no other command. -/
theorem compress_empty (p : Params) :
    compress [] (State.resetWith p) = .next ((State.resetWith p).reply (.reg (.len 0))) := by
  have hput : step ((State.resetWith p).load [.put (.sym [])]) = .next (State.resetWith p) :=
    (step_load_put _ _).trans (hostPut_empty_sym _)
  have hcount : step ((State.resetWith p).load [command .count]) = .next (State.resetWith p) :=
    (step_command _ _).trans (exec_count_of_empty rfl)
  have hread : step ((State.resetWith p).load [.readReg .ftLen]) =
      .next ((State.resetWith p).reply (.reg (.len 0))) := step_load_readReg _ _
  rw [compress, runScript_cons hput, runScript_cons hcount, runScript_cons hread]
  rfl

/-- After the short circuit DECODE finds the null root and no digits (44_decoder.md R151). -/
theorem roundtrip_empty (p : Params) :
    roundtrip [] (State.resetWith p) = .next ((State.resetWith p).reply (.reg (.len 0))) := by
  have hdecode : step (((State.resetWith p).reply (.reg (.len 0))).load [command .decode]) =
      .next ((State.resetWith p).reply (.reg (.len 0))) :=
    (step_command _ _).trans ((decodeWithNullRoot _ rfl).1 rfl)
  simp only [roundtrip, compress_empty]
  exact runScript_cons hdecode

/-- Settles O34: BUILD's tree of the occurrence table decodes what its code table encodes
(`BuiltTree.roundTrip`), so that only Capacity can break a pass, and room excludes it. -/
theorem roundTripRecoversInput : Obligations.RoundTripRecoversInput := by
  refine ⟨fun s hne => ?_, fun p => ⟨_, roundtrip_empty p, rfl, rfl, rfl⟩⟩
  obtain ⟨t1, t2, t3, t4, t5, h⟩ := exists_pipelineRun s
  refine ⟨t1, t2, t3, t4, t5, ⟨h.count, h.build, h.table, h.encode, h.decode⟩, fun h1 h2 h4 h5 => ?_,
    fun hroom => ?_⟩
  · obtain ⟨ok1, ok2, ok4, ok5, hout⟩ := h.recovers hne h1 h2 h4 h5
    have hlen : t5.len .out = s.len .sym := congrArg List.length hout
    exact ⟨ok1, ok2, h.table_status, ok4, ok5, hout, h.sym_decode, hlen⟩
  · obtain ⟨ok1, ok2, ok4, ok5⟩ := h.all_ok_of_room hne hroom
    simp [ok1, ok2, ok4, ok5]

end Sys2Proof.Machine
end

section
/-! PROOFS of the statements about statuses and failures (60_exceptions.md): which command ends with which
code, and that a failure empties the command's destination and writes STATUS. -/

namespace Sys2Proof.Machine

/-! ## Capacity wants a bound (60_exceptions.md R208) -/

/-- A check that the unbounded reading passes fails only with other parameters. -/
theorem params_ne_unbounded (check : Params → Bool) {p : Params} (hunbounded : check .unbounded = true)
    (hfail : check p = false) : p ≠ .unbounded := by
  rintro rfl
  cases hunbounded.symm.trans hfail

theorem freqFits_unbounded (n : Nat) : freqFits .unbounded n = true := rfl

theorem tableFits_unbounded (T : List FtEntry) : tableFits .unbounded T = true :=
  Bool.and_eq_true_iff.2 ⟨rfl, List.all_eq_true.2 fun e _ => freqFits_unbounded e.count⟩

/-! ## The codes a command can end with (60_exceptions.md R208) -/

section
variable {s t : State}

theorem exec_clear_ends (h : exec .clear s = .next t) : t.status = .ok := by
  cases (execClear_eq s).symm.trans h
  rfl

theorem exec_count_ends (h : exec .count s = .next t) :
    t.status = .ok ∨ (t.status = .capacity ∧ s.params ≠ .unbounded) := by
  obtain ⟨-, e⟩ | ⟨hover, e⟩ := execCount_cases s <;> cases e.symm.trans h
  · exact .inl rfl
  · exact .inr ⟨rfl, params_ne_unbounded (tableFits · _) (tableFits_unbounded _) hover⟩

theorem exec_build_ends (h : exec .build s = .next t) :
    t.status = .ok ∨ t.status = .invalidInput ∨ (t.status = .capacity ∧ s.params ≠ .unbounded) := by
  obtain ⟨-, -, e⟩ | ⟨-, e⟩ | ⟨-, hover, e⟩ := execBuild_cases s <;> cases e.symm.trans h
  · exact .inl rfl
  · exact .inr (.inl rfl)
  · exact .inr (.inr ⟨rfl, params_ne_unbounded (freqFits · _) (freqFits_unbounded _) hover⟩)

theorem exec_table_ends (h : exec .table s = .next t) : t.status = .ok := by
  obtain ⟨_, -, e⟩ | ⟨-, e⟩ := execTable_cases s <;> cases e.symm.trans h
  rfl

theorem exec_encode_ends (h : exec .encode s = .next t) :
    t.status = .ok ∨ t.status = .lookupError ∨ (t.status = .capacity ∧ s.params ≠ .unbounded) := by
  obtain ⟨_, -, -, e⟩ | ⟨-, e⟩ | ⟨E, -, hover, e⟩ := execEncode_cases s <;> cases e.symm.trans h
  · exact .inl rfl
  · exact .inr (.inl rfl)
  · exact .inr (.inr ⟨rfl, params_ne_unbounded (fits ·.mMax E.length) (fits_none _) hover⟩)

theorem exec_decode_ends (h : exec .decode s = .next t) :
    t.status = .ok ∨ t.status = .malformedStream ∨ (t.status = .capacity ∧ s.params ≠ .unbounded) := by
  obtain ⟨_, -, -, e⟩ | ⟨-, e⟩ | ⟨D, -, hover, e⟩ | ⟨-, e⟩ := execDecode_cases s <;> cases e.symm.trans h
  · exact .inl rfl
  · exact .inr (.inl rfl)
  · exact .inr (.inr ⟨rfl, params_ne_unbounded (fits ·.oMax D.length) (fits_none _) hover⟩)

theorem step_undecodable_ends {w : Byte} {rest : List Transaction} (hs : s.script = .cmd w :: rest)
    (hw : ∀ i, decode w ≠ .ok i) (h : step s = .next t) : t.status = .illegalCommand := by
  cases hd : decode w with
  | ok i => exact absurd hd (hw i)
  | error e =>
    cases (step_cmd_of_decode_error hs hd).symm.trans h
    rfl

end

/-! ## A state for each code -/

/-- Parameters so small that two symbols exhaust FT, three digits BITS and two symbols OUT. -/
def tightParams : Params :=
  { symW := some 1, freqW := some 2, nMax := some 4, kMax := some 2, mMax := some 3, oMax := some 2,
    idxW := some 2, lenW := some 3 }

/-- The state of `tightParams` with the buffers `m`, ROOT being the last of three nodes. -/
def tightTreeState (m : Memory) : State :=
  { State.resetWith tightParams with root := ⟨true, 2⟩, mem := m }

/-- The tree of two symbols that occur once each. -/
def pairTree : List NodeRec := [.leaf 0 1, .leaf 1 1, .internal 2 0 1]

/-- The code table of `pairTree`. -/
def pairTable : List CtEntry := [⟨0, [false]⟩, ⟨1, [true]⟩]

/-- A state from which each command that can end with the code does. For OK a finished pass over two
symbols; for Capacity buffers that hold what they can, each with a result one too large; for the source's
errors symbols and digits with no table, tree or code to read them by. -/
def stateEndingIn : Status → State
  | .ok => tightTreeState ⟨[0, 1], [⟨0, 1⟩, ⟨1, 1⟩], pairTree, pairTable, [false, true], [0, 1]⟩
  | .capacity =>
    tightTreeState ⟨[0, 0, 0, 0], [⟨0, 2⟩, ⟨1, 2⟩], pairTree, pairTable, [false, false, false], []⟩
  | .invalidInput | .lookupError | .malformedStream | .illegalCommand =>
    { State.resetWith tightParams with mem := { Memory.empty with sym := [0], bits := [false] } }

/-- R208's table, by rows. -/
def commandCodes : Instr → List Status
  | .clear | .table => [.ok]
  | .count => [.ok, .capacity]
  | .build => [.ok, .invalidInput, .capacity]
  | .encode => [.ok, .lookupError, .capacity]
  | .decode => [.ok, .malformedStream, .capacity]

/-- The states are ones the machine can be in: they meet its invariant. -/
theorem stateEndingIn_inv (c : Status) : (stateEndingIn c).Inv := by
  cases c <;> decide

/-- Each command ends with each code of its row of R208's table, from a state of the invariant. -/
theorem exists_exec_ending {i : Instr} {c : Status} (hc : c ∈ commandCodes i) :
    ∃ s t : State, s.Inv ∧ exec i s = .next t ∧ t.status = c := by
  suffices h : ∃ t, exec i (stateEndingIn c) = .next t ∧ t.status = c by
    obtain ⟨t, h, hstatus⟩ := h
    exact ⟨stateEndingIn c, t, stateEndingIn_inv c, h, hstatus⟩
  cases i <;> simp only [commandCodes, List.mem_cons, List.not_mem_nil, or_false] at hc
  case clear | table =>
    subst hc
    exact ⟨_, rfl, rfl⟩
  case count => obtain rfl | rfl := hc <;> exact ⟨_, rfl, rfl⟩
  case build | encode | decode => obtain rfl | rfl | rfl := hc <;> exact ⟨_, rfl, rfl⟩

/-- Settles O36: each command's codes are those of its outcomes, Capacity being a failed check that the
unbounded reading passes, and `stateEndingIn` has a state for each. -/
theorem statusCodesOfCommands : Obligations.StatusCodesOfCommands := by
  refine ⟨fun s t => exec_clear_ends, fun s t => exec_count_ends, fun s t => exec_build_ends,
    fun s t => exec_table_ends, fun s t => exec_encode_ends, fun s t => exec_decode_ends,
    fun s t w rest => step_undecodable_ends, ?reached⟩
  intro i c hic
  have hrow : c ∈ commandCodes i := (show ∀ r ∈ _, r.2 ∈ commandCodes r.1 by decide) (i, c) hic
  obtain ⟨s, t, -, h, hstatus⟩ := exists_exec_ending hrow
  exact ⟨s, t, h, hstatus⟩

/-! ## What a failure leaves (60_exceptions.md R206) -/

/-- A command that does not end OK has raised its status. -/
theorem complete_eq_raise {st : Status} {d : Buffer} {write : State → State} {s : State}
    (h : (complete st d write s).status ≠ .ok) :
    complete st d write s = raise (complete st d write s).status d s := by
  rw [complete_status] at h ⊢
  exact complete_error h d write s

/-- Settles O37: an error is raised, and `raise` empties the destination and writes STATUS; CLEAR and TABLE
have no error. -/
theorem failureEmptiesDestination : Obligations.FailureEmptiesDestination := by
  intro i s t h hfail
  cases i with
  | clear => exact hfail (exec_clear_ends h)
  | table => exact hfail (exec_table_ends h)
  | count | build | encode =>
    obtain rfl := Host.Outcome.next.inj h
    exact complete_eq_raise hfail
  | decode =>
    obtain ⟨_, -, -, e⟩ | ⟨-, e⟩ | ⟨_, -, -, e⟩ | ⟨-, e⟩ := execDecode_cases s <;> cases e.symm.trans h
    · exact absurd rfl hfail
    · rfl
    · rfl

end Sys2Proof.Machine
end

section
/-! PROOFS of the statements about one step and one host transaction (45_system.md R166, R167, R170;
70_reset_and_hazards.md R221, R222). -/

namespace Sys2Proof.Machine

/-! ## The transactions the hardware has (45_system.md R167) -/

theorem contentsFit_ft {p : Params} {F : List FtEntry} :
    contentsFit p (.ft F) = true ↔
      fits p.kMax F.length = true ∧ ∀ e ∈ F, symFits p e.sym = true ∧ freqFits p e.count = true := by
  simp [contentsFit, bufferCap, contentsBuffer, contentsLength, elementsFit, ftEntryFits]

theorem contentsFit_bits {p : Params} {E : List Digit} :
    contentsFit p (.bits E) = true ↔ fits p.mMax E.length = true := by
  simp [contentsFit, bufferCap, contentsBuffer, contentsLength, elementsFit]

theorem transactionExists_put {p : Params} {c : Contents} :
    transactionExists p (.put c) = true ↔
      hostWritable (contentsBuffer c) = true ∧ contentsFit p c = true := Bool.and_eq_true_iff

theorem transactionExists_put_sym {p : Params} {L : List Symbol} :
    transactionExists p (.put (.sym L)) = true ↔
      fits p.nMax L.length = true ∧ ∀ a ∈ L, symFits p a = true := by
  simp only [transactionExists_put, contentsFit_sym, contentsBuffer, hostWritable, true_and]

theorem transactionExists_put_ft {p : Params} {L : List FtEntry} :
    transactionExists p (.put (.ft L)) = true ↔
      fits p.kMax L.length = true ∧ ∀ e ∈ L, symFits p e.sym = true ∧ freqFits p e.count = true := by
  simp only [transactionExists_put, contentsFit_ft, contentsBuffer, hostWritable, true_and]

theorem transactionExists_put_bits {p : Params} {L : List Digit} :
    transactionExists p (.put (.bits L)) = true ↔ fits p.mMax L.length = true := by
  simp only [transactionExists_put, contentsFit_bits, contentsBuffer, hostWritable, true_and]

/-- HostPut is refused exactly when it is no transaction of this hardware. -/
theorem putRefusal_eq_none_iff {p : Params} {c : Contents} :
    putRefusal p c = none ↔ transactionExists p (.put c) = true := by
  cases hw : hostWritable (contentsBuffer c) <;> cases he : elementsFit p c <;>
    cases hf : fits (bufferCap p (contentsBuffer c)) (contentsLength c) <;>
    simp [putRefusal, transactionExists, contentsFit, hw, he, hf]

theorem hostPut_of_exists {c : Contents} {s : State} (h : transactionExists s.params (.put c) = true) :
    hostPut c s = .next (s.store c) := by
  simp only [hostPut, putRefusal_eq_none_iff.2 h]

theorem hostPut_refused {c : Contents} {s : State} (h : ¬ transactionExists s.params (.put c) = true) :
    ∃ r, hostPut c s = .refused r := by
  obtain ⟨r, hr⟩ := Option.ne_none_iff_exists'.1 (mt putRefusal_eq_none_iff.1 h)
  exact ⟨r, by simp only [hostPut, hr]⟩

/-! ## One step, by the host's transaction (45_system.md R166, R167, R170) -/

section
variable {s : State} {rest : List Transaction}

theorem step_of_idle (hs : s.script = []) : step s = .next s := by
  simp only [step, fetch_nil hs]

theorem step_cmd_of_decode_ok {w : Byte} {i : Instr} (hs : s.script = .cmd w :: rest)
    (hw : decode w = .ok i) : step s = exec i { s with script := rest } := by
  simp only [step, fetch_cons hs, hw]

theorem step_put {c : Contents} (hs : s.script = .put c :: rest) :
    step s = hostPut c { s with script := rest } := by
  simp only [step, fetch_cons hs]

theorem step_put_of_exists {c : Contents} (hs : s.script = .put c :: rest)
    (h : transactionExists s.params (.put c) = true) :
    step s = .next { s with script := rest, mem := s.mem.store c } :=
  (step_put hs).trans (hostPut_of_exists h)

theorem step_put_refused {c : Contents} (hs : s.script = .put c :: rest)
    (h : ¬ transactionExists s.params (.put c) = true) : ∃ r, step s = .refused r := by
  rw [step_put hs]
  exact hostPut_refused h

/-- NODE, CT and OUT are read-only to the host. -/
theorem step_put_readOnly {c : Contents} (hs : s.script = .put c :: rest)
    (h : hostWritable (contentsBuffer c) = false) : ∃ r, step s = .refused r :=
  step_put_refused hs fun hexists => absurd (transactionExists_put.1 hexists).1 (by simp [h])

theorem step_writeReg {r : Reg} {v : Nat} (hs : s.script = .writeReg r v :: rest) :
    step s = .refused (.writeOfReadOnlyRegister r) := by
  simp only [step, fetch_cons hs]

end

/-- Settles O3: the step takes the transaction out of the script, decodes its word and runs the command. -/
theorem stepRunsDecodedCommand : Obligations.StepRunsDecodedCommand :=
  fun _ _ _ _ => step_cmd_of_decode_ok

/-- Settles O5: an empty script has nothing to fetch. -/
theorem idleStepChangesNothing : Obligations.IdleStepChangesNothing := fun _ => step_of_idle

/-- Settles O6: the sequences of R167 that fit are the puts the hardware has, and every other put, like a
write of a read-only register, is refused. -/
theorem hostPutReplacesOneBuffer : Obligations.HostPutReplacesOneBuffer := by
  refine ⟨fun s L rest hs hlen hsym => step_put_of_exists hs (transactionExists_put_sym.2 ⟨hlen, hsym⟩),
    fun s L rest hs hlen hfit => step_put_of_exists hs (transactionExists_put_ft.2 ⟨hlen, hfit⟩),
    fun s L rest hs hlen => step_put_of_exists hs (transactionExists_put_bits.2 hlen), ?refused⟩
  rintro s t rest hs
    (⟨L, rfl⟩ | ⟨L, rfl⟩ | ⟨L, rfl⟩ | ⟨L, rfl, hbad⟩ | ⟨L, rfl, hbad⟩ | ⟨L, rfl, hlong⟩ | ⟨r, v, rfl⟩)
  · exact step_put_readOnly hs rfl
  · exact step_put_readOnly hs rfl
  · exact step_put_readOnly hs rfl
  · refine step_put_refused hs fun h => ?_
    obtain ⟨hlen, hsym⟩ := transactionExists_put_sym.1 h
    obtain hlong | ⟨x, hx, hwide⟩ := hbad
    · cases hlen.symm.trans hlong
    · cases (hsym x hx).symm.trans hwide
  · refine step_put_refused hs fun h => ?_
    obtain ⟨hlen, hfit⟩ := transactionExists_put_ft.1 h
    obtain hlong | ⟨e, he, hwide⟩ := hbad
    · cases hlen.symm.trans hlong
    · obtain ⟨hsym, hcount⟩ := hfit e he
      obtain hwide | hwide := hwide
      · cases hsym.symm.trans hwide
      · cases hcount.symm.trans hwide
  · exact step_put_refused hs fun h => absurd (transactionExists_put_bits.1 h) (by simp [hlong])
  · exact ⟨_, step_writeReg hs⟩

theorem hostPut_keeps_params {c : Contents} {s t : State} (h : hostPut c s = .next t) :
    t.params = s.params := by
  obtain ⟨-, -, -, e⟩ | ⟨_, e⟩ := hostPut_cases c s <;> cases e.symm.trans h
  rfl

/-- Every step keeps the parameters: no command writes them, and no transaction of the host does. -/
theorem step_keeps_params {s t : State} (h : step s = .next t) : t.params = s.params := by
  obtain ⟨-, rfl⟩ | ⟨_, rest, -, hstep⟩ := step_cases h
  · rfl
  · obtain ⟨_, _, -, -, hexec⟩ | ⟨_, _, -, -, rfl⟩ | ⟨_, -, hput⟩ | ⟨_, -, rfl⟩ | ⟨_, -, rfl⟩ := hstep
    · exact (exec_keeps_params hexec).trans rfl
    · rfl
    · exact (hostPut_keeps_params hput).trans rfl
    · rfl
    · rfl

/-- Settles O8, by what a step can do. -/
theorem stepKeepsParameters : Obligations.StepKeepsParameters := fun _ _ => step_keeps_params

end Sys2Proof.Machine
end

section
/-! PROOF of the statement about the encoder (30_encoding.md R80, R81, R84). -/

namespace Sys2Proof

/-- Settles O2: the words that decode to a command are that command's encoding and no others. -/
theorem encoderAndDecoderAgree : Obligations.EncoderAndDecoderAgree :=
  ⟨fun _ _ => Machine.decode_ok_iff.2 rfl, fun _ _ h => (Machine.decode_ok_iff.1 h).symm⟩

end Sys2Proof
end

section
/-! PROOFS of the statements about the invariant (10_state.md section 5, 20_memory.md section 1): it holds at
reset, every step keeps it, it makes every transaction complete, and it bounds the registers. -/

namespace Sys2Proof.Machine

/-! ## Bounds from legal parameters (00_scope.md R9) -/

theorem fits_of_boundLe {a b : Option Nat} {n : Nat} (hab : boundLe a b = true) (h : fits a n = true) :
    fits b n = true := by
  match a, b with
  | _, none => exact fits_none n
  | none, some _ => cases hab
  | some a, some b => exact fits_some.2 ((fits_some.1 h).trans (of_decide_eq_true hab))

/-- `LEN_W` holds every capacity. -/
theorem Params.lenWHolds_bufferCap {p : Params} (h : p.wf = true) (b : Buffer) :
    p.lenWHolds (bufferCap p b) = true := by
  simp only [Params.wf, Params.lenWLargeEnough, Bool.and_eq_true] at h
  obtain ⟨-, ⟨⟨⟨hn, hk⟩, hnode⟩, hm⟩, ho⟩ := h
  cases b <;> assumption

theorem Params.idxWLargeEnough_of_wf {p : Params} (h : p.wf = true) : p.idxWLargeEnough = true := by
  simp only [Params.wf, Bool.and_eq_true] at h
  obtain ⟨⟨-, hidx⟩, -⟩ := h
  exact hidx

/-- The indices of a NODE content within its capacity are of `IDX_W` bits. -/
theorem idxFits_of_lt {p : Params} (hp : p.wf = true) {n c : Nat} (hc : fits p.nodeMax c = true)
    (hn : n < c) : idxFits p n = true := by
  have hpow := fits_of_boundLe (Params.idxWLargeEnough_of_wf hp) hc
  unfold idxFits
  cases hw : p.idxW with
  | none => exact fits_none n
  | some w =>
    rw [hw, Option.map_some, fits_some] at hpow
    exact fits_widthMax_some.2 (hn.trans_le hpow)

/-! ## What the commands write fits (10_state.md R31 to R35) -/

theorem contentsFit_node {p : Params} {N : List NodeRec} :
    contentsFit p (.node N) = true ↔ fits p.nodeMax N.length = true ∧ ∀ n ∈ N, nodeFits p n = true := by
  simp [contentsFit, bufferCap, contentsBuffer, contentsLength, elementsFit]

theorem contentsFit_out {p : Params} {D : List Symbol} :
    contentsFit p (.out D) = true ↔ fits p.oMax D.length = true ∧ ∀ a ∈ D, symFits p a = true := by
  simp [contentsFit, bufferCap, contentsBuffer, contentsLength, elementsFit]

theorem contentsFit_occurrenceTable {p : Params} {S : List Symbol} (hS : contentsFit p (.sym S) = true)
    (hT : tableFits p (occurrenceTable S) = true) : contentsFit p (.ft (occurrenceTable S)) = true := by
  obtain ⟨-, hsym⟩ := contentsFit_sym.1 hS
  obtain ⟨hlen, hcount⟩ := Bool.and_eq_true_iff.1 hT
  exact contentsFit_ft.2 ⟨hlen, fun e he =>
    ⟨hsym _ (mem_occurrenceTable.1 he).1, List.all_eq_true.1 hcount e he⟩⟩

/-- A leaf of a NODE content that fits has a Symbol of `SYM_W` bits. -/
theorem symFits_of_leaf {p : Params} {N : List NodeRec} (hN : contentsFit p (.node N) = true) {m f : Nat}
    {a : Symbol} (h : N[m]? = some (.leaf a f)) : symFits p a = true := by
  obtain ⟨-, hnodes⟩ := contentsFit_node.1 hN
  exact (Bool.and_eq_true_iff.1 (hnodes _ (List.mem_of_getElem? h))).1

/-- `NODE_MAX` is `2*K_MAX - 1` (00_scope.md R9). -/
theorem fits_nodeMax_of_leaves {p : Params} {k : Nat} (h : fits p.kMax k = true) :
    fits p.nodeMax (2 * k - 1) = true := by
  unfold Params.nodeMax
  cases hk : p.kMax with
  | none => exact fits_none _
  | some c =>
    rw [hk, fits_some] at h
    rw [Option.map_some, fits_some]
    omega

/-- The tree of a table that fits FT fits NODE when the sum of the counts fits a frequency: no node is
heavier than the root (41_tree_builder.md R118, R119). -/
theorem BuiltTree.contentsFit {p : Params} {F : List FtEntry} {N : List NodeRec} {root : Root}
    (h : BuiltTree F N root) (hF : Buildable F) (hp : p.wf = true)
    (hfit : Machine.contentsFit p (.ft F) = true) (hsum : freqFits p (sumCounts F) = true) :
    Machine.contentsFit p (.node N) = true := by
  obtain ⟨hlen, hentries⟩ := contentsFit_ft.1 hfit
  have htree := h.treeValid hF
  have hN : fits p.nodeMax N.length = true := h.length ▸ fits_nodeMax_of_leaves hlen
  refine contentsFit_node.2 ⟨hN, fun n hn => ?_⟩
  obtain ⟨q, hq⟩ := List.mem_iff_getElem?.1 hn
  have hlt := (List.getElem?_eq_some_iff.1 hq).1
  have hfreq : freqFits p (nodeFreq n) = true := by
    rw [← freqAt_of_getElem? hq]
    exact freqFits_mono (h.root_freq ▸ htree.freqAt_le_root hlt) hsum
  obtain ⟨a, f, hleaf, hqk, -⟩ | ⟨f, l, r, hint, -, hl, hr, -⟩ := htree.node_cases hlt
  · rw [h.leafCount_eq hF.1] at hqk
    have hentry := h.leaf (List.getElem?_eq_getElem hqk)
    cases hq.symm.trans hentry
    exact Bool.and_eq_true_iff.2 ⟨(hentries _ (List.getElem_mem hqk)).1, hfreq⟩
  · cases hq.symm.trans hint
    have hidx {x : Nat} (hx : x < q) : idxFits p x = true := idxFits_of_lt hp hN (hx.trans hlt)
    simp only [nodeFits, Bool.and_eq_true]
    exact ⟨⟨hfreq, hidx hl⟩, hidx hr⟩

/-- Every symbol of a well-formed tree's code table is a leaf's. -/
theorem TreeWf.exists_leaf_of_mem_codeTable {N : List NodeRec} {root : Root} (h : TreeWf N root)
    {T : List CtEntry} (hT : codeTable N root = some T) {e : CtEntry} (he : e ∈ T) :
    ∃ m f : Nat, N[m]? = some (.leaf e.sym f) := by
  obtain ⟨rfl, -⟩ | h := h
  · cases hT
    cases he
  · obtain ⟨m, f, -, hleaf⟩ := (h.walkOk hT).mem_root.1 (show (⟨e.sym, e.code⟩ : CtEntry) ∈ T from he)
    exact ⟨m, f, hleaf⟩

/-! ## Every command keeps the buffers well formed (20_memory.md R62) -/

/-- From `s` to `t` one buffer was replaced, by a content that fits it. -/
def StoresFitting (s t : State) : Prop :=
  ∃ c, t.mem = s.mem.store c ∧ contentsFit s.params c = true

theorem StoresFitting.wf {s t : State} (h : StoresFitting s t) (hs : s.mem.wf s.params = true) :
    t.mem.wf s.params = true := by
  obtain ⟨c, hmem, hc⟩ := h
  rw [hmem]
  exact Memory.wf_store hs hc

theorem execCount_storesFitting {s t : State} (hs : s.Inv) (h : execCount s = .next t) :
    StoresFitting s t := by
  obtain ⟨-, hmem, -, -⟩ := hs
  obtain ⟨hfit, e⟩ | ⟨-, e⟩ := execCount_cases s <;> cases e.symm.trans h
  · exact ⟨.ft _, rfl, contentsFit_occurrenceTable (Memory.wf_iff.1 hmem .sym) hfit⟩
  · exact ⟨.ft [], rfl, contentsFit_empty _ .ft⟩

theorem execBuild_storesFitting {s t : State} (hs : s.Inv) (h : execBuild s = .next t) :
    StoresFitting s t := by
  obtain ⟨hp, hmem, -, -⟩ := hs
  obtain ⟨hF, hsum, e⟩ | ⟨-, e⟩ | ⟨-, -, e⟩ := execBuild_cases s <;> cases e.symm.trans h
  · exact ⟨.node _, rfl, (buildTree_spec hF.1).contentsFit hF hp (Memory.wf_iff.1 hmem .ft) hsum⟩
  · exact ⟨.node [], rfl, contentsFit_empty _ .node⟩
  · exact ⟨.node [], rfl, contentsFit_empty _ .node⟩

theorem execTable_storesFitting {s t : State} (hs : s.Inv) (h : execTable s = .next t) :
    StoresFitting s t := by
  obtain ⟨u, hu, -, hlen, hcode⟩ := tableAlwaysEndsOk s hs
  cases hu.symm.trans h
  obtain ⟨-, hmem, htree, -⟩ := hs
  obtain ⟨T, hT, e⟩ | ⟨-, e⟩ := execTable_cases s <;> cases e.symm.trans h
  refine ⟨.ct T, rfl, contentsFit_ct.2 ⟨hlen, fun x hx => ?_⟩⟩
  obtain ⟨m, f, hleaf⟩ := htree.exists_leaf_of_mem_codeTable hT hx
  exact Bool.and_eq_true_iff.2 ⟨symFits_of_leaf (Memory.wf_iff.1 hmem .node) hleaf, hcode x hx⟩

theorem execEncode_storesFitting {s t : State} (h : execEncode s = .next t) : StoresFitting s t := by
  obtain ⟨E, -, hfit, e⟩ | ⟨-, e⟩ | ⟨-, -, -, e⟩ := execEncode_cases s <;> cases e.symm.trans h
  · exact ⟨.bits E, rfl, contentsFit_bits.2 hfit⟩
  · exact ⟨.bits [], rfl, contentsFit_empty _ .bits⟩
  · exact ⟨.bits [], rfl, contentsFit_empty _ .bits⟩

theorem execDecode_storesFitting {s t : State} (hs : s.Inv) (h : execDecode s = .next t) :
    StoresFitting s t := by
  obtain ⟨-, hmem, -, -⟩ := hs
  obtain ⟨D, hD, hfit, e⟩ | ⟨-, e⟩ | ⟨-, -, -, e⟩ | ⟨-, e⟩ := execDecode_cases s <;> cases e.symm.trans h
  · refine ⟨.out D, rfl, contentsFit_out.2 ⟨hfit, fun a ha => ?_⟩⟩
    obtain ⟨m, f, hleaf⟩ := decodeStream_symbols hD ha
    exact symFits_of_leaf (Memory.wf_iff.1 hmem .node) hleaf
  · exact ⟨.out [], rfl, contentsFit_empty _ .out⟩
  · exact ⟨.out [], rfl, contentsFit_empty _ .out⟩

theorem exec_keeps_wf {i : Instr} {s t : State} (hs : s.Inv) (h : exec i s = .next t) :
    t.mem.wf s.params = true := by
  obtain ⟨-, hwf, -, -⟩ := id hs
  cases i with
  | clear => cases (execClear_eq s).symm.trans h; exact Memory.wf_empty _
  | count => exact (execCount_storesFitting hs h).wf hwf
  | build => exact (execBuild_storesFitting hs h).wf hwf
  | table => exact (execTable_storesFitting hs h).wf hwf
  | encode => exact (execEncode_storesFitting h).wf hwf
  | decode => exact (execDecode_storesFitting hs h).wf hwf

/-! ## The invariant -/

/-- Every step keeps the buffers within their capacities and field widths. -/
theorem step_keeps_wf {s t : State} (hs : s.Inv) (h : step s = .next t) : t.mem.wf t.params = true := by
  obtain ⟨-, hwf, -, -⟩ := id hs
  obtain ⟨-, rfl⟩ | ⟨_, rest, -, hstep⟩ := step_cases h
  · exact hwf
  · have hrest : State.Inv { s with script := rest } := hs
    obtain ⟨_, _, -, -, hexec⟩ | ⟨_, _, -, -, rfl⟩ | ⟨_, -, hput⟩ | ⟨_, -, rfl⟩ | ⟨_, -, rfl⟩ := hstep
    · rw [exec_keeps_params hexec]
      exact exec_keeps_wf hrest hexec
    · exact hwf
    · exact Memory.wf_hostPut hput hwf
    · exact hwf
    · exact hwf

/-- Settles O43: the parameters stay, what a step writes fits its buffer (`step_keeps_wf`), and the tree of
R38 and the table of R39 are kept (`step_keeps_treesWf`). -/
theorem stepKeepsInvariant : Obligations.StepKeepsInvariant := by
  intro s t hs h
  have hwf := step_keeps_wf hs h
  obtain ⟨hp, -, htree, htable⟩ := hs
  obtain ⟨htree', htable'⟩ := step_keeps_treesWf h ⟨htree, htable⟩
  exact ⟨by rwa [step_keeps_params h], hwf, htree', htable'⟩

/-- The empty buffers, the null root and the empty table meet the invariant, whatever is loaded. -/
theorem inv_load_resetWith {p : Params} (hp : p.wf = true) (ts : List Transaction) :
    ((State.resetWith p).load ts).Inv :=
  ⟨hp, Memory.wf_empty p, .inl ⟨rfl, rfl⟩, .inl rfl⟩

/-- Settles O42: `State.reset` is the unbounded reading with nothing loaded. -/
theorem invariantHoldsAtReset : Obligations.InvariantHoldsAtReset :=
  ⟨inv_load_resetWith (p := .unbounded) (by decide) [], fun _ ts hp => inv_load_resetWith hp ts⟩

/-! ## From the invariant everything completes (45_system.md R170, R173) -/

theorem exec_completes {i : Instr} {s : State} (hs : s.Inv) : ∃ u, exec i s = .next u := by
  obtain ⟨-, -, htree, -⟩ := hs
  cases i with
  | clear | count | build | encode => exact ⟨_, rfl⟩
  | table => exact exec_table_completes htree
  | decode => exact exec_decode_completes htree

/-- Settles O45: a command faults on an ill-formed tree only, and a put is refused only where it is no
transaction of the hardware. -/
theorem stepFromInvariantCompletes : Obligations.StepFromInvariantCompletes := by
  refine ⟨fun s hs hexists => ?_, fun i s => exec_completes⟩
  cases hscript : s.script with
  | nil => exact ⟨_, step_of_idle hscript⟩
  | cons t rest =>
    have ht := hexists t rest hscript
    have hrest : State.Inv { s with script := rest } := hs
    cases t with
    | cmd w =>
      cases hw : decode w with
      | ok i =>
        rw [step_cmd_of_decode_ok hscript hw]
        exact exec_completes hrest
      | error e => exact ⟨_, step_cmd_of_decode_error hscript hw⟩
    | put c => exact ⟨_, step_put_of_exists hscript ht⟩
    | get b => exact ⟨_, step_get hscript⟩
    | readReg r => exact ⟨_, step_readReg hscript⟩
    | readCmd | writeReg => cases ht

/-! ## The registers (10_state.md R26, R27) -/

theorem contentsLength_contents (s : State) (b : Buffer) : contentsLength (s.mem.contents b) = s.len b := by
  cases b <;> rfl

theorem contentsBuffer_contents (m : Memory) (b : Buffer) : contentsBuffer (m.contents b) = b := by
  cases b <;> rfl

theorem State.len_fits {s : State} (h : s.mem.wf s.params = true) (b : Buffer) :
    fits (bufferCap s.params b) (s.len b) = true := by
  have hcap := (Bool.and_eq_true_iff.1 (Memory.wf_iff.1 h b)).1
  rwa [contentsBuffer_contents, contentsLength_contents] at hcap

/-- ROOT is null with index 0, or names the last node. -/
theorem idxFits_root {s : State} (hs : s.Inv) : idxFits s.params s.root.idx = true := by
  obtain ⟨hp, hmem, htree, -⟩ := hs
  obtain ⟨hnull, -⟩ | htree := htree
  · rw [hnull]
    exact fits_zero _
  · exact idxFits_of_lt hp (State.len_fits hmem .node) htree.root_lt

/-- Settles O46: a length is at most a capacity, which `LEN_W` holds, and ROOT's index is a node's. -/
theorem registersFitTheirWidths : Obligations.RegistersFitTheirWidths := by
  intro s hs
  obtain ⟨hp, hwf, -, -⟩ := id hs
  refine ⟨fun w b hw => ?_, fun w hw => ?_⟩
  · have hlen := fits_of_boundLe (Params.lenWHolds_bufferCap hp b) (State.len_fits hwf b)
    rw [hw] at hlen
    exact fits_widthMax_some.1 hlen
  · have hidx := idxFits_root hs
    rw [idxFits, hw] at hidx
    exact fits_widthMax_some.1 hidx

end Sys2Proof.Machine
end

section
/-! PROOFS of the statements about what COUNT, TABLE and ENCODE write (40_frequency_counter.md R100,
42_code_table_generator.md R134, 43_encoder.md R140), and about the reset state (70_reset_and_hazards.md
R222). -/

namespace Sys2Proof.Machine

/-- Settles O12: with room for the distinct symbols and for every count the occurrence table fits FT. -/
theorem countWritesOccurrenceTable : Obligations.CountWritesOccurrenceTable := by
  intro s hlen hcount
  have hfit := tableFits_occurrenceTable.2 ⟨hlen, hcount⟩
  obtain ⟨-, e⟩ | ⟨hover, -⟩ := execCount_cases s
  · exact e
  · cases hfit.symm.trans hover

/-- Settles O24: the loop gives the concatenation, and there is room for it. -/
theorem encodeConcatenatesCodes : Obligations.EncodeConcatenatesCodes := by
  intro s code hT hcode hfit
  rw [exec_encode_of_digits (encodeSymbols_eq_flatMap hT hcode), if_pos hfit]

/-- At an internal root every code has a digit (42_code_table_generator.md R134 (b)). -/
theorem LeadsToLeaf.code_ne_nil {N : List NodeRec} {n f l r : Nat} (hn : N[n]? = some (.internal f l r))
    {c : List Digit} {a : Symbol} (h : LeadsToLeaf N n c a) : c ≠ [] := by
  obtain ⟨u, rfl, -⟩ | ⟨u, rfl, -⟩ := (leadsToLeaf_internal hn).1 h <;> exact List.cons_ne_nil _ _

theorem TreeValid.exists_internal_root {N : List NodeRec} {root : Root} (h : TreeValid N root)
    (hk : 2 ≤ leafCount N) : ∃ f l r, N[root.idx]? = some (.internal f l r) := by
  obtain ⟨hone, -⟩ | ⟨-, hint⟩ := h.root_cases
  · omega
  · exact hint

/-- Settles O22: the table is the walk of the tree from its root (`WalkOk`), whose entries are the paths to
the leaves; (d) is that every digit sequence meets a leaf's path (`TreeValid.complete`). -/
theorem tableCodesPrefixFreeAndComplete : Obligations.TableCodesPrefixFreeAndComplete := by
  intro s t htree h
  have hwalk := htree.walkOk (execTable_codeTable h).1
  have hlen := htree.table_length hwalk
  refine ⟨hlen, htree.table_syms_nodup hwalk, fun e he => ?depth, fun hk e he => ?nonempty,
    hwalk.order.imp CodeBefore.apart, fun _ E => ?complete, ?ends⟩
  case depth =>
    have hdepth := hwalk.depth e he
    rw [hlen, List.length_nil] at hdepth
    omega
  case nonempty =>
    obtain ⟨f, l, r, hint⟩ := htree.exists_internal_root hk
    exact List.length_pos_of_ne_nil ((hwalk.mem_root.1 he).code_ne_nil hint)
  case complete =>
    obtain ⟨c, a, hc, hE⟩ := htree.complete htree.root_lt E
    exact ⟨⟨a, c⟩, hwalk.mem_root.2 hc, hE⟩
  case ends =>
    obtain ⟨e, u, hhead, heq, hu⟩ := hwalk.first
    obtain ⟨f, v, hlast, hfeq, hv⟩ := hwalk.last
    exact ⟨e, f, hhead, hlast, by rwa [heq], by rwa [hfeq]⟩

/-- Settles O10: an empty SYM, table or stream has an empty result with OK, an empty FT fails BUILD's check,
and writing the empty result leaves the reset state. -/
theorem commandsFromReset : Obligations.CommandsFromReset := fun p =>
  have hroot : (State.resetWith p).root.valid = false := rfl
  ⟨exec_count_of_empty rfl, buildInputCheck.1 _ (.inl rfl), execTable_of_null hroot,
    exec_encode_of_no_digits rfl, (decodeWithNullRoot _ hroot).1 rfl, rfl⟩

end Sys2Proof.Machine
end

section
/-! PROOFS of the statements about DECODE's reading of codes at an internal root (44_decoder.md R156, R157,
46_pipeline_properties.md R187). -/

namespace Sys2Proof.Machine

/-! ## Parses (44_decoder.md R156, R157) -/

/-- Each symbol of a parse takes at least one digit. -/
theorem Parses.length_le {N : List NodeRec} {root f l r : Nat} (hroot : N[root]? = some (.internal f l r))
    {E : List Digit} {S : List Symbol} (h : Parses N root E S) : S.length ≤ E.length := by
  obtain ⟨ps, rfl, rfl, hps⟩ := h
  rw [List.length_map, List.length_flatten, List.map_map]
  calc ps.length
    _ = (ps.map (List.length ∘ Prod.fst)).length := (List.length_map _).symm
    _ ≤ (ps.map (List.length ∘ Prod.fst)).sum := List.length_le_sum_of_one_le _ fun n hn => by
      obtain ⟨q, hq, rfl⟩ := List.mem_map.1 hn
      exact List.length_pos_of_ne_nil ((hps q hq).code_ne_nil hroot)

/-- DECODE reads a parse of the digits as its symbols. -/
theorem Parses.decodeStream {N : List NodeRec} {root : Root} (hvalid : root.valid = true) {f l r : Nat}
    (hroot : N[root.idx]? = some (.internal f l r)) {E : List Digit} {S : List Symbol}
    (h : Parses N root.idx E S) : Machine.decodeStream N root E = some (some S) := by
  simp [Machine.decodeStream, hvalid, hroot, h.decodeFrom hroot]

/-- Settles O30: DECODE's loop emits a parse's symbols, so that the parse is unique, and the entries of the
table are the tree's paths. -/
theorem decodeReadsCodeSequences : Obligations.DecodeReadsCodeSequences := by
  intro s htree hk
  obtain ⟨f, l, r, hint⟩ := htree.exists_internal_root hk
  refine ⟨fun S hS hfit => exec_decode_of_fit (hS.decodeStream htree.1 hint) hfit,
    fun S S' hS hS' => hS.unique hint hS', fun u S code htable hcode hbits => ?_⟩
  have hwalk := htree.walkOk (execTable_codeTable htable).1
  rw [hbits]
  exact Parses.of_codes fun x hx => hwalk.mem_root.1 (hcode x hx)

/-- DECODE of more symbols than OUT holds. -/
theorem exec_decode_of_over {s : State} {D : List Symbol}
    (h : decodeStream s.mem.node s.root s.mem.bits = some (some D))
    (hover : fits s.params.oMax D.length = false) :
    exec .decode s = .next { s with status := .capacity, mem := { s.mem with out := [] } } := by
  rw [exec, execDecode_of_symbols h, hover, if_neg Bool.false_ne_true]

/-- Settles O32: what DECODE reads is the parse's symbols or the leaf's, and it does not fit OUT. -/
theorem decodeCapacityFailure : Obligations.DecodeCapacityFailure := by
  refine ⟨fun s S htree hk hS => ?_, fun s a f hnode hroot hbits hover => ?_⟩
  · obtain ⟨f, l, r, hint⟩ := htree.exists_internal_root hk
    exact ⟨hS.length_le hint, exec_decode_of_over (hS.decodeStream htree.1 hint)⟩
  · refine exec_decode_of_over (D := List.replicate f a) ?_ (by rwa [List.length_replicate])
    rw [hnode, hroot, decodeStream_leaf, if_pos hbits]

/-! ## A trailing incomplete code (46_pipeline_properties.md R187) -/

/-- DECODE's loop on digits in two parts. -/
theorem decodeFrom_append {N : List NodeRec} {root n p : Nat} {E : List Digit} {D : List Symbol}
    (h : decodeFrom N root n E = some (D, p)) (E' : List Digit) :
    decodeFrom N root n (E ++ E') = (decodeFrom N root p E').map fun x => (D ++ x.1, x.2) := by
  induction E generalizing n D p with
  | nil =>
    cases h
    simp
  | cons d E ih =>
    simp only [decodeFrom, List.cons_append] at h ⊢
    split at h
    next => cases h
    next q hq =>
      split at h
      next => cases h
      next s f hs =>
        split at h
        next => cases h
        next D' p' hD' =>
          cases h
          rw [ih hD']
          cases decodeFrom N root p E' <;> rfl
      next => exact ih h

/-- A node from which a further digit leads somewhere is internal. -/
theorem internal_of_follow {N : List NodeRec} {n m : Nat} {c : List Digit} (hc : c ≠ [])
    (h : follow N n c = some m) : ∃ f l r, N[n]? = some (.internal f l r) := by
  cases c with
  | nil => exact absurd rfl hc
  | cons d c =>
    unfold follow at h
    split at h
    next f l r hn => exact ⟨f, l, r, hn⟩
    · cases h
    · cases h

/-- On a path to an internal node DECODE's loop emits nothing. -/
theorem decodeFrom_of_follow {N : List NodeRec} {root n p f l r : Nat} {c : List Digit}
    (h : follow N n c = some p) (hp : N[p]? = some (.internal f l r)) :
    decodeFrom N root n c = some ([], p) := by
  induction c generalizing n with
  | nil =>
    cases h
    rfl
  | cons d c ih =>
    obtain ⟨g, a, b, hn⟩ := internal_of_follow (List.cons_ne_nil d c) h
    simp only [follow, hn] at h
    have hchild : ∃ g' a' b', N[if d then b else a]? = some (.internal g' a' b') := by
      by_cases hc : c = []
      · subst hc
        cases h
        exact ⟨f, l, r, hp⟩
      · exact internal_of_follow hc h
    obtain ⟨g', a', b', hchild⟩ := hchild
    simp only [decodeFrom, childOn, hn, hchild]
    exact ih h

/-- Settles O33: after the good codes the loop is at the root, from which the rest of the digits takes it to
an internal node below. -/
theorem danglingDigitsAreMalformed : Obligations.DanglingDigitsAreMalformed := by
  intro s S E tail more a htree hE hcode htail hmore hbits
  obtain ⟨m, f, hfollow, -⟩ := hcode
  rw [follow_append, Option.bind_eq_some_iff] at hfollow
  obtain ⟨p, hp, hm⟩ := hfollow
  obtain ⟨f, l, r, hroot⟩ := internal_of_follow htail hp
  obtain ⟨g, a, b, hint⟩ := internal_of_follow hmore hm
  have hne : p ≠ s.root.idx := by
    have hbelow := htree.follow_lt hp
    have hpos := List.length_pos_of_ne_nil htail
    omega
  have hloop : decodeFrom s.mem.node s.root.idx s.root.idx s.mem.bits = some (S, p) := by
    rw [hbits, decodeFrom_append (hE.decodeFrom hroot), decodeFrom_of_follow hp hint, Option.map_some,
      List.append_nil]
  exact execDecode_of_malformed (by simp [decodeStream, htree.1, hroot, hloop, hne])

end Sys2Proof.Machine
end

section
/-! PROOFS of the statements that hold of all commands alike: what each leaves unchanged and reads
(20_memory.md R61), that it can be repeated (60_exceptions.md R209), and what the bounds do to it
(60_exceptions.md R205). -/

namespace Sys2Proof.Machine

/-! ## Frames (20_memory.md R61) -/

theorem Memory.contents_store_of_ne {m : Memory} {c : Contents} {b : Buffer} (h : b ≠ contentsBuffer c) :
    (m.store c).contents b = m.contents b := by
  cases c <;> cases b <;> simp_all [contentsBuffer]

theorem mem_destinations_clear (o : Operand) : o ∈ destinations .clear := by
  cases o with
  | root => decide
  | buffer b => cases b <;> decide

/-- All that a command other than CLEAR writes: STATUS, one buffer, and ROOT where R61 names it. -/
theorem exec_writes {i : Instr} {s t : State} (hi : i ≠ .clear) (h : exec i s = .next t) :
    ∃ st r c, t = { s with status := st, root := r, mem := s.mem.store c } ∧
      .buffer (contentsBuffer c) ∈ destinations i ∧ (.root ∈ destinations i ∨ r = s.root) := by
  cases i with
  | clear => exact absurd rfl hi
  | count =>
    obtain ⟨-, e⟩ | ⟨-, e⟩ := execCount_cases s <;> cases e.symm.trans h
    all_goals exact ⟨_, _, .ft _, rfl, .head _, .inr rfl⟩
  | build =>
    obtain ⟨-, -, e⟩ | ⟨-, e⟩ | ⟨-, -, e⟩ := execBuild_cases s <;> cases e.symm.trans h
    all_goals exact ⟨_, _, .node _, rfl, .head _, .inl (by decide)⟩
  | table =>
    obtain ⟨T, -, e⟩ | ⟨-, e⟩ := execTable_cases s <;> cases e.symm.trans h
    exact ⟨_, _, .ct _, rfl, .head _, .inr rfl⟩
  | encode =>
    obtain ⟨_, -, -, e⟩ | ⟨-, e⟩ | ⟨_, -, -, e⟩ := execEncode_cases s <;> cases e.symm.trans h
    all_goals exact ⟨_, _, .bits _, rfl, .head _, .inr rfl⟩
  | decode =>
    obtain ⟨_, -, -, e⟩ | ⟨-, e⟩ | ⟨_, -, -, e⟩ | ⟨-, e⟩ := execDecode_cases s <;> cases e.symm.trans h
    all_goals exact ⟨_, _, .out _, rfl, .head _, .inr rfl⟩

/-- The frame of every command: beside STATUS only its destinations change. -/
theorem exec_frame {i : Instr} {s t : State} (h : exec i s = .next t) :
    t.script = s.script ∧ t.replies = s.replies ∧ ∀ o ∉ destinations i, t.operand o = s.operand o := by
  by_cases hi : i = .clear
  · subst hi
    cases (execClear_eq s).symm.trans h
    exact ⟨rfl, rfl, fun o ho => absurd (mem_destinations_clear o) ho⟩
  · obtain ⟨st, r, c, rfl, hc, hr⟩ := exec_writes hi h
    refine ⟨rfl, rfl, fun o ho => ?_⟩
    cases o with
    | root => exact congrArg OperandVal.root (hr.resolve_left ho)
    | buffer b =>
      have hne : b ≠ contentsBuffer c := fun hb => ho (hb ▸ hc)
      exact congrArg OperandVal.contents (Memory.contents_store_of_ne hne)

/-- A buffer with the same content reads the same. -/
theorem State.reads_eq {s t : State} {b : Buffer} (h : t.operand (.buffer b) = s.operand (.buffer b)) :
    t.len b = s.len b ∧ ∀ j, t.elem b j = s.elem b j := by
  have hcontents : t.mem.contents b = s.mem.contents b := OperandVal.contents.inj h
  cases b <;> simp_all [State.elem]

/-- Settles O38: an operand that is no destination of the command is unchanged (`exec_frame`), and a buffer
is read through its content. -/
theorem commandsChangeOnlyTheirDestination : Obligations.CommandsChangeOnlyTheirDestination := by
  intro i s t h
  obtain ⟨hscript, hreplies, hframe⟩ := exec_frame h
  refine ⟨⟨exec_keeps_params h, hscript, hreplies⟩, ?_⟩
  have hroot (ho : .root ∉ destinations i) : t.root = s.root := OperandVal.root.inj (hframe .root ho)
  have hbuffer (b : Buffer) (ho : .buffer b ∉ destinations i) := State.reads_eq (hframe (.buffer b) ho)
  cases i with
  | clear => trivial
  | build => exact fun b hb => hbuffer b (by simpa [destinations] using hb)
  | count | table | encode | decode =>
    exact ⟨hroot (by decide), fun b hb => hbuffer b (by simpa [destinations] using hb)⟩

/-! ## What a result depends on (20_memory.md R61) -/

theorem exec_table_next_iff {s t : State} : exec .table s = .next t ↔
    ∃ T, codeTable s.mem.node s.root = some T ∧
      t = complete .ok .ct (fun u => u.store (.ct T)) s := by
  unfold exec execTable
  cases codeTable s.mem.node s.root <;> simp [eq_comm]

theorem exec_decode_next_iff {s t : State} : exec .decode s = .next t ↔
    ∃ D, decodeStream s.mem.node s.root s.mem.bits = some D ∧
      t = complete (decodeStatus s.params D) .out (fun u => u.store (.out (D.getD []))) s := by
  unfold exec execDecode
  cases decodeStream s.mem.node s.root s.mem.bits <;> simp [eq_comm]

/-- What a command that writes the content `c` leaves in its destination. -/
theorem complete_store_operand (st : Status) (c : Contents) (s : State) :
    (complete st (contentsBuffer c) (fun u => u.store c) s).operand (.buffer (contentsBuffer c)) =
      .contents (if st = .ok then c else emptyContents (contentsBuffer c)) := by
  obtain ⟨hst, e⟩ | ⟨hst, e⟩ := complete_cases st (contentsBuffer c) (fun u => u.store c) s
  · rw [e, if_pos hst]
    cases c <;> rfl
  · rw [e, if_neg hst]
    cases c <;> rfl

/-- What BUILD leaves in NODE and ROOT. -/
theorem complete_storeTree_operands (st : Status) (N : List NodeRec) (r : Root) (s : State) :
    (complete st .node (fun u => u.storeTree N r) s).operand (.buffer .node) =
        .contents (.node (if st = .ok then N else [])) ∧
      (complete st .node (fun u => u.storeTree N r) s).operand .root =
        .root (if st = .ok then r else .null) := by
  obtain ⟨hst, e⟩ | ⟨hst, e⟩ := complete_cases st .node (fun u => u.storeTree N r) s
  · rw [e, if_pos hst, if_pos hst]
    exact ⟨rfl, rfl⟩
  · rw [e, if_neg hst, if_neg hst]
    exact ⟨rfl, rfl⟩

/-- Two states end a command the same way: with the same STATUS and the same destination. -/
def SameEnd (i : Instr) (t t' : State) : Prop :=
  t'.status = t.status ∧ ∀ o ∈ destinations i, t'.operand o = t.operand o

theorem sameEnd_complete_store {i : Instr} {c : Contents}
    (hi : destinations i = [.buffer (contentsBuffer c)]) (st : Status) (s s' : State) :
    SameEnd i (complete st (contentsBuffer c) (fun u => u.store c) s)
      (complete st (contentsBuffer c) (fun u => u.store c) s') := by
  refine ⟨by rw [complete_status, complete_status], fun o ho => ?_⟩
  rw [hi, List.mem_singleton] at ho
  rw [ho, complete_store_operand, complete_store_operand]

theorem sameEnd_complete_storeTree (st : Status) (N : List NodeRec) (r : Root) (s s' : State) :
    SameEnd .build (complete st .node (fun u => u.storeTree N r) s)
      (complete st .node (fun u => u.storeTree N r) s') := by
  obtain ⟨hnode, hroot⟩ := complete_storeTree_operands st N r s
  obtain ⟨hnode', hroot'⟩ := complete_storeTree_operands st N r s'
  refine ⟨by rw [complete_status, complete_status], ?_⟩
  simp only [destinations, List.forall_mem_cons]
  exact ⟨hnode'.trans hnode.symm, hroot'.trans hroot.symm, by simp⟩

/-- Settles O40: STATUS and the content to be written are functions of the parameters and the sources, and
how a command ends adds nothing of the state it started in. -/
theorem commandsReadOnlyTheirSources : Obligations.CommandsReadOnlyTheirSources := by
  intro i s s' t hparams hsources h
  suffices hend : ∃ t', exec i s' = .next t' ∧ SameEnd i t t' from hend
  cases i with
  | clear =>
    cases (execClear_eq s).symm.trans h
    exact ⟨_, execClear_eq s', rfl, fun _ _ => rfl⟩
  | count =>
    have hsym : s.mem.sym = s'.mem.sym := by simpa [State.operand, sources] using hsources
    obtain rfl := Host.Outcome.next.inj h
    rw [hsym, hparams]
    exact ⟨_, rfl, sameEnd_complete_store (c := .ft _) rfl _ s s'⟩
  | build =>
    have hft : s.mem.ft = s'.mem.ft := by simpa [State.operand, sources] using hsources
    obtain rfl := Host.Outcome.next.inj h
    rw [hft, hparams]
    exact ⟨_, rfl, sameEnd_complete_storeTree _ _ _ s s'⟩
  | table =>
    obtain ⟨hroot, hnode⟩ : s.root = s'.root ∧ s.mem.node = s'.mem.node := by
      simpa [State.operand, sources] using hsources
    obtain ⟨T, hT, rfl⟩ := exec_table_next_iff.1 h
    rw [hroot, hnode] at hT
    exact ⟨_, exec_table_next_iff.2 ⟨T, hT, rfl⟩, sameEnd_complete_store (c := .ct T) rfl _ s s'⟩
  | encode =>
    obtain ⟨hsym, hct⟩ : s.mem.sym = s'.mem.sym ∧ s.mem.ct = s'.mem.ct := by
      simpa [State.operand, sources] using hsources
    obtain rfl := Host.Outcome.next.inj h
    rw [hsym, hct, hparams]
    exact ⟨_, rfl, sameEnd_complete_store (c := .bits _) rfl _ s s'⟩
  | decode =>
    obtain ⟨hbits, hroot, hnode⟩ :
        s.mem.bits = s'.mem.bits ∧ s.root = s'.root ∧ s.mem.node = s'.mem.node := by
      simpa [State.operand, sources] using hsources
    obtain ⟨D, hD, rfl⟩ := exec_decode_next_iff.1 h
    rw [hbits, hroot, hnode] at hD
    rw [hparams]
    exact ⟨_, exec_decode_next_iff.2 ⟨D, hD, rfl⟩, sameEnd_complete_store (c := .out _) rfl _ s s'⟩

/-! ## A command run again (60_exceptions.md R209) -/

theorem Memory.eq_of_contents {m n : Memory} (h : ∀ b, m.contents b = n.contents b) : m = n := by
  have hsym := Contents.sym.inj (h .sym)
  have hft := Contents.ft.inj (h .ft)
  have hnode := Contents.node.inj (h .node)
  have hct := Contents.ct.inj (h .ct)
  have hbits := Contents.bits.inj (h .bits)
  have hout := Contents.out.inj (h .out)
  cases m
  cases n
  simp_all only

/-- A state is its parameters, STATUS, operands, script and replies. -/
theorem State.eq_of_operands {s t : State} (hparams : s.params = t.params) (hstatus : s.status = t.status)
    (hscript : s.script = t.script) (hreplies : s.replies = t.replies)
    (h : ∀ o, s.operand o = t.operand o) : s = t := by
  have hroot : s.root = t.root := OperandVal.root.inj (h .root)
  have hcontents (b : Buffer) : s.mem.contents b = t.mem.contents b :=
    OperandVal.contents.inj (h (.buffer b))
  have hmem : s.mem = t.mem := Memory.eq_of_contents hcontents
  cases s
  cases t
  simp_all

/-- No command reads what it writes. -/
theorem not_mem_destinations_of_mem_sources {i : Instr} : ∀ o ∈ sources i, o ∉ destinations i := by
  cases i <;> decide

/-- Settles O39: the second run finds the sources as the first did, since they are no destinations, so it
writes the same (`commandsReadOnlyTheirSources`) and leaves the rest (`exec_frame`). -/
theorem repeatedCommandGivesSameState : Obligations.RepeatedCommandGivesSameState := by
  intro i s t h
  obtain ⟨-, -, hframe⟩ := exec_frame h
  have hparams := exec_keeps_params h
  obtain ⟨t', h', hstatus, hsame⟩ := commandsReadOnlyTheirSources i s t t hparams.symm
    (fun o ho => (hframe o (not_mem_destinations_of_mem_sources o ho)).symm) h
  obtain ⟨hscript, hreplies, hframe'⟩ := exec_frame h'
  have hoperands : ∀ o, t'.operand o = t.operand o := fun o => by
    by_cases ho : o ∈ destinations i
    · exact hsame o ho
    · exact hframe' o ho
  rw [h', State.eq_of_operands (exec_keeps_params h') hstatus hscript hreplies hoperands]

/-! ## Bounds and Capacity (60_exceptions.md R205) -/

/-- How a command ends does not depend on a part of the state that its write leaves alone. -/
theorem complete_comm {f : State → State} {st : Status} {d : Buffer} {write : State → State} {s : State}
    (hempty : (f s).emptyDestination d = f (s.emptyDestination d))
    (hstatus : ∀ u c, (f u).setStatus c = f (u.setStatus c)) (hwrite : write (f s) = f (write s)) :
    complete st d write (f s) = f (complete st d write s) := by
  unfold complete raise
  split
  · rw [hwrite, hstatus]
  · rw [hempty, hstatus]

/-- The state of the same machine in the unbounded reading. -/
def State.unbounded (s : State) : State := { s with params := .unbounded }

theorem complete_store_unbounded (st : Status) (d : Buffer) (c : Contents) (s : State) :
    complete st d (fun u => u.store c) s.unbounded = (complete st d (fun u => u.store c) s).unbounded :=
  complete_comm (by cases d <;> rfl) (fun _ _ => rfl) rfl

theorem complete_storeTree_unbounded (st : Status) (d : Buffer) (N : List NodeRec) (r : Root)
    (s : State) : complete st d (fun u => u.storeTree N r) s.unbounded =
      (complete st d (fun u => u.storeTree N r) s).unbounded :=
  complete_comm (by cases d <;> rfl) (fun _ _ => rfl) rfl

theorem withCapacity_true_of_ne {st : Status} {b : Bool} (h : withCapacity st b ≠ .capacity) :
    withCapacity st true = withCapacity st b := by
  cases b with
  | true => rfl
  | false =>
    unfold withCapacity at h ⊢
    split
    next hst => exact absurd (if_pos hst) h
    next => rfl

section
variable {p : Params}

theorem countStatus_unbounded {T : List FtEntry} (h : countStatus p T ≠ .capacity) :
    countStatus .unbounded T = countStatus p T := by
  rw [countStatus, tableFits_unbounded]
  exact withCapacity_true_of_ne h

theorem buildStatus_unbounded {F : List FtEntry} (h : buildStatus p F ≠ .capacity) :
    buildStatus .unbounded F = buildStatus p F := by
  unfold buildStatus at h ⊢
  split
  next => rfl
  next hcheck =>
    rw [if_neg hcheck] at h
    exact withCapacity_true_of_ne h

theorem encodeStatus_unbounded {E : Option (List Digit)} (h : encodeStatus p E ≠ .capacity) :
    encodeStatus .unbounded E = encodeStatus p E := by
  cases E with
  | none => rfl
  | some E => exact withCapacity_true_of_ne h

theorem decodeStatus_unbounded {D : Option (List Symbol)} (h : decodeStatus p D ≠ .capacity) :
    decodeStatus .unbounded D = decodeStatus p D := by
  cases D with
  | none => rfl
  | some D => exact withCapacity_true_of_ne h

end

/-- A command that does not end with Capacity does the same in the unbounded reading. -/
theorem exec_unbounded {i : Instr} {s t : State} (h : exec i s = .next t) (hne : t.status ≠ .capacity) :
    exec i s.unbounded = .next t.unbounded := by
  cases i with
  | clear =>
    cases (execClear_eq s).symm.trans h
    rfl
  | count =>
    obtain rfl := Host.Outcome.next.inj h
    rw [complete_status] at hne
    rw [← complete_store_unbounded, ← countStatus_unbounded hne]
    rfl
  | build =>
    obtain rfl := Host.Outcome.next.inj h
    rw [complete_status] at hne
    rw [← complete_storeTree_unbounded, ← buildStatus_unbounded hne]
    rfl
  | table =>
    obtain ⟨T, hT, rfl⟩ := exec_table_next_iff.1 h
    exact exec_table_next_iff.2 ⟨T, hT, rfl⟩
  | encode =>
    obtain rfl := Host.Outcome.next.inj h
    rw [complete_status] at hne
    rw [← complete_store_unbounded, ← encodeStatus_unbounded hne]
    rfl
  | decode =>
    obtain ⟨D, hD, rfl⟩ := exec_decode_next_iff.1 h
    rw [complete_status] at hne
    refine exec_decode_next_iff.2 ⟨D, hD, ?_⟩
    rw [← complete_store_unbounded, ← decodeStatus_unbounded hne]
    rfl

/-- Each command's Capacity is a failed check that the unbounded reading passes. -/
theorem exec_status_ne_capacity {i : Instr} {s t : State} (hp : s.params = .unbounded)
    (h : exec i s = .next t) : t.status ≠ .capacity := by
  intro hcap
  cases i with
  | clear => cases (exec_clear_ends h).symm.trans hcap
  | table => cases (exec_table_ends h).symm.trans hcap
  | count =>
    obtain e | ⟨-, hne⟩ := exec_count_ends h
    · cases e.symm.trans hcap
    · exact hne hp
  | build =>
    obtain e | e | ⟨-, hne⟩ := exec_build_ends h
    · cases e.symm.trans hcap
    · cases e.symm.trans hcap
    · exact hne hp
  | encode =>
    obtain e | e | ⟨-, hne⟩ := exec_encode_ends h
    · cases e.symm.trans hcap
    · cases e.symm.trans hcap
    · exact hne hp
  | decode =>
    obtain e | e | ⟨-, hne⟩ := exec_decode_ends h
    · cases e.symm.trans hcap
    · cases e.symm.trans hcap
    · exact hne hp

/-- Settles O41: bounds decide between OK and Capacity and nothing else. -/
theorem capacityIsTheOnlyEffectOfBounds : Obligations.CapacityIsTheOnlyEffectOfBounds :=
  ⟨fun _ _ _ => exec_status_ne_capacity, fun _ _ _ => exec_unbounded⟩

end Sys2Proof.Machine
end

section
/-! PROOF of the statement about the host sequence ROUNDTRIP from reset (46_pipeline_properties.md R181,
R182, R186). -/

namespace Sys2Proof.Machine

/-- No command reads the replies: COUNT before or after a reply is the same. -/
theorem exec_count_reply {s t : State} (h : exec .count s = .next t) (r : Reply) :
    exec .count (s.reply r) = .next (t.reply r) := by
  obtain rfl := Host.Outcome.next.inj h
  exact congrArg Host.Outcome.next (complete_comm (f := (State.reply · r)) rfl (fun _ _ => rfl) rfl)

theorem runScript_command {i : Instr} {ts : List Transaction} {s u : State} (h : exec i s = .next u) :
    runScript (command i :: ts) s = runScript ts u :=
  runScript_cons ((step_command s i).trans h)

/-- The reply to the host's read of FT_LEN (46_pipeline_properties.md R180). -/
def ftLenReply (s : State) : Reply := .reg (s.regVal .ftLen)

/-- ROUNDTRIP of a sequence whose table is not empty is the pass of the five commands, with the host's read
of FT_LEN after the first. -/
theorem roundtrip_of_pipelineRun {S : List Symbol} {s u t1 t2 t3 t4 t5 : State}
    (hput : hostPut (.sym S) s = .next u) (hcount : exec .count u = .next t1) (hft : t1.mem.ft ≠ [])
    (hrun : PipelineRun (u.reply (ftLenReply t1)) (t1.reply (ftLenReply t1)) t2 t3 t4 t5) :
    roundtrip S s = .next t5 := by
  have hread : runScript [.put (.sym S), command .count, .readReg .ftLen] s =
      .next (t1.reply (ftLenReply t1)) := by
    rw [runScript_cons ((step_load_put _ s).trans hput), runScript_command hcount,
      runScript_cons (step_load_readReg .ftLen t1)]
    rfl
  have hlast : (t1.reply (ftLenReply t1)).replies.getLast? ≠ some (.reg (.len 0)) := by
    simpa [ftLenReply, State.regVal] using hft
  have hcompress : compress S s = .next t4 := by
    simp only [compress, hread, if_neg hlast]
    rw [runScript_command hrun.build, runScript_command hrun.table, runScript_command hrun.encode]
    rfl
  simp only [roundtrip, hcompress]
  rw [runScript_command hrun.decode]
  rfl

/-- Settles O35: the empty sequence short-circuits (`roundtrip_empty`); for another the host's sequence is a
pass with room, which recovers it (`PipelineRun.recovers`). -/
theorem roundtripSequenceFromReset : Obligations.RoundtripSequenceFromReset := by
  intro p S hlen hsym hroom
  by_cases hS : S = []
  · subst hS
    exact ⟨_, roundtrip_empty p, rfl, rfl, rfl, fun _ => ⟨rfl, rfl⟩⟩
  · have hput : hostPut (.sym S) (State.resetWith p) = .next ((State.resetWith p).store (.sym S)) :=
      hostPut_of_exists (transactionExists_put_sym.2 ⟨hlen, hsym⟩)
    obtain ⟨t1, hcount⟩ : ∃ t, exec .count ((State.resetWith p).store (.sym S)) = .next t := ⟨_, rfl⟩
    obtain ⟨t1', t2, t3, t4, t5, hrun⟩ :=
      exists_pipelineRun (((State.resetWith p).store (.sym S)).reply (ftLenReply t1))
    obtain rfl := Host.Outcome.next.inj ((exec_count_reply hcount _).symm.trans hrun.count)
    obtain ⟨ok1, ok2, ok4, ok5⟩ := hrun.all_ok_of_room hS hroom
    have hft : t1.mem.ft ≠ [] := by
      rw [execCount_ft_of_ok hcount ok1]
      exact mt occurrenceTable_eq_nil_iff.1 hS
    have hne {st : Status} (hok : st = .ok) : st ≠ .capacity := by simp [hok]
    obtain ⟨-, -, -, -, hout⟩ := hrun.recovers hS (hne ok1) (hne ok2) (hne ok4) (hne ok5)
    exact ⟨t5, roundtrip_of_pipelineRun hput hcount hft hrun, ok5, hrun.sym_decode, hout,
      fun hnil => absurd hnil hS⟩

end Sys2Proof.Machine
end

section
/-! PROOFS of the statements about the record layouts (30_encoding.md section 3, 10_state.md R27): where each
field stands, and that unpacking reads it back. -/

namespace Sys2Proof.Machine

/-! ## A field's bits and its number -/

/-- The low field of a concatenation. -/
theorem getLsbD_append_ofNat {m w n i : Nat} (x : BitVec m) (hi : i < w) :
    (x ++ BitVec.ofNat w n).getLsbD i = n.testBit i := by
  rw [BitVec.getLsbD_append, if_pos hi, BitVec.getLsbD_ofNat, decide_eq_true hi, Bool.true_and]

/-- The high part of a concatenation. -/
theorem getLsbD_append_add {m w : Nat} (x : BitVec m) (y : BitVec w) (i : Nat) :
    (x ++ y).getLsbD (w + i) = x.getLsbD i := by
  rw [BitVec.getLsbD_append, if_neg (by omega), Nat.add_sub_cancel_left]

theorem getLsbD_ofNat_of_lt {w n i : Nat} (hi : i < w) : (BitVec.ofNat w n).getLsbD i = n.testBit i := by
  rw [BitVec.getLsbD_ofNat, decide_eq_true hi, Bool.true_and]

theorem toNat_ofNat_of_lt {w n : Nat} (h : n < 2 ^ w) : (BitVec.ofNat w n).toNat = n := by
  rw [BitVec.toNat_ofNat, Nat.mod_eq_of_lt h]

/-- A bit of a payload, which has the width `P` whatever it was widened from. -/
theorem getLsbD_append_setWidth {m w P i : Nat} (x : BitVec m) (y : BitVec w) (hi : i < P) :
    (x ++ y.setWidth P).getLsbD i = y.getLsbD i := by
  rw [BitVec.getLsbD_append, if_pos hi, BitVec.getLsbD_setWidth, decide_eq_true hi, Bool.true_and]

/-! ## FT entries (30_encoding.md R87) -/

theorem packFtEntry_bits (sw fw : Nat) (e : FtEntry) :
    (∀ i < fw, (packFtEntry sw fw e).getLsbD i = e.count.testBit i) ∧
      ∀ i < sw, (packFtEntry sw fw e).getLsbD (fw + i) = e.sym.testBit i :=
  ⟨fun _ hi => getLsbD_append_ofNat _ hi,
    fun i hi => (getLsbD_append_add _ _ i).trans (getLsbD_ofNat_of_lt hi)⟩

theorem unpackFtEntry_packFtEntry {sw fw : Nat} {e : FtEntry} (hsym : e.sym < 2 ^ sw)
    (hcount : e.count < 2 ^ fw) : unpackFtEntry sw fw (packFtEntry sw fw e) = e := by
  rw [unpackFtEntry, packFtEntry, BitVec.extractLsb'_append_eq_left, BitVec.extractLsb'_append_eq_right,
    toNat_ofNat_of_lt hsym, toNat_ofNat_of_lt hcount]

/-! ## Node records (30_encoding.md R88) -/

section
variable {P w fw f : Nat} (tag : BitVec 1) (y : BitVec w)

/-- The tag stands on top of a node record. -/
theorem nodeLayout_tag : (tag ++ BitVec.ofNat fw f ++ y.setWidth P).getLsbD (fw + P) = tag.getLsbD 0 := by
  rw [Nat.add_comm fw P, getLsbD_append_add]
  exact getLsbD_append_add tag (BitVec.ofNat fw f) 0

/-- The frequency stands below the tag. -/
theorem nodeLayout_freq {i : Nat} (hi : i < fw) :
    (tag ++ BitVec.ofNat fw f ++ y.setWidth P).getLsbD (P + i) = f.testBit i := by
  rw [getLsbD_append_add, getLsbD_append_ofNat _ hi]

theorem nodeLayout_extract_freq :
    (tag ++ BitVec.ofNat fw f ++ y.setWidth P).extractLsb' P fw = BitVec.ofNat fw f := by
  rw [BitVec.extractLsb'_append_eq_of_le le_rfl, Nat.sub_self, BitVec.extractLsb'_append_eq_right]

/-- A field of the payload, read from the whole record. -/
theorem nodeLayout_extract_payload {start len : Nat} (h : start + len ≤ P) :
    (tag ++ BitVec.ofNat fw f ++ y.setWidth P).extractLsb' start len = y.extractLsb' start len := by
  rw [BitVec.extractLsb'_append_eq_of_add_le h, BitVec.extractLsb'_setWidth_of_le h]

end

theorem symW_le_payloadWidth (sw iw : Nat) : sw ≤ payloadWidth sw iw := le_max_left _ _

theorem two_idxW_le_payloadWidth (sw iw : Nat) : 2 * iw ≤ payloadWidth sw iw := le_max_right _ _

theorem packNode_leaf_bits (sw fw iw a f : Nat) :
    (packNode sw fw iw (.leaf a f)).getLsbD (fw + payloadWidth sw iw) = false ∧
    (∀ i < fw, (packNode sw fw iw (.leaf a f)).getLsbD (payloadWidth sw iw + i) = f.testBit i) ∧
    (∀ i < sw, (packNode sw fw iw (.leaf a f)).getLsbD i = a.testBit i) ∧
    ∀ i, sw ≤ i → i < payloadWidth sw iw → (packNode sw fw iw (.leaf a f)).getLsbD i = false := by
  refine ⟨nodeLayout_tag _ _, fun i hi => nodeLayout_freq _ _ hi, fun i hi => ?_, fun i hsw hi => ?_⟩
  · rw [packNode, getLsbD_append_setWidth _ _ (hi.trans_le (symW_le_payloadWidth sw iw)),
      getLsbD_ofNat_of_lt hi]
  · rw [packNode, getLsbD_append_setWidth _ _ hi, BitVec.getLsbD_of_ge _ _ hsw]

theorem packNode_internal_bits (sw fw iw f l r : Nat) :
    (packNode sw fw iw (.internal f l r)).getLsbD (fw + payloadWidth sw iw) = true ∧
    (∀ i < fw, (packNode sw fw iw (.internal f l r)).getLsbD (payloadWidth sw iw + i) = f.testBit i) ∧
    (∀ i < iw, (packNode sw fw iw (.internal f l r)).getLsbD i = r.testBit i) ∧
    (∀ i < iw, (packNode sw fw iw (.internal f l r)).getLsbD (iw + i) = l.testBit i) ∧
    ∀ i, 2 * iw ≤ i → i < payloadWidth sw iw →
      (packNode sw fw iw (.internal f l r)).getLsbD i = false := by
  have hP := two_idxW_le_payloadWidth sw iw
  refine ⟨nodeLayout_tag _ _, fun i hi => nodeLayout_freq _ _ hi, fun i hi => ?_, fun i hi => ?_,
    fun i hiw hi => ?_⟩
  · rw [packNode, getLsbD_append_setWidth _ _ (by omega), getLsbD_append_ofNat _ hi]
  · rw [packNode, getLsbD_append_setWidth _ _ (by omega), getLsbD_append_add, getLsbD_ofNat_of_lt hi]
  · rw [packNode, getLsbD_append_setWidth _ _ hi, BitVec.getLsbD_of_ge _ _ (by omega)]

theorem unpackNode_packNode_leaf {sw fw iw a f : Nat} (ha : a < 2 ^ sw) (hf : f < 2 ^ fw) :
    unpackNode sw fw iw (packNode sw fw iw (.leaf a f)) = .leaf a f := by
  obtain ⟨htag, -⟩ := packNode_leaf_bits sw fw iw a f
  rw [unpackNode, htag, packNode, nodeLayout_extract_freq,
    nodeLayout_extract_payload _ _ ((Nat.zero_add sw).trans_le (symW_le_payloadWidth sw iw)),
    BitVec.extractLsb'_eq_self, toNat_ofNat_of_lt ha, toNat_ofNat_of_lt hf, if_neg Bool.false_ne_true]

theorem unpackNode_packNode_internal {sw fw iw f l r : Nat} (hf : f < 2 ^ fw) (hl : l < 2 ^ iw)
    (hr : r < 2 ^ iw) :
    unpackNode sw fw iw (packNode sw fw iw (.internal f l r)) = .internal f l r := by
  obtain ⟨htag, -⟩ := packNode_internal_bits sw fw iw f l r
  have hP := two_idxW_le_payloadWidth sw iw
  rw [unpackNode, htag, packNode, nodeLayout_extract_freq, nodeLayout_extract_payload _ _ (by omega),
    nodeLayout_extract_payload _ _ (by omega), BitVec.extractLsb'_append_eq_left,
    BitVec.extractLsb'_append_eq_right, toNat_ofNat_of_lt hf, toNat_ofNat_of_lt hl, toNat_ofNat_of_lt hr,
    if_pos rfl]

/-! ## CT entries (30_encoding.md R89) -/

section
variable {sw cm : Nat} {e : CtEntry}

theorem packCtEntry_code_bit {i : Nat} (hi : i < cm) :
    (packCtEntry sw cm e).getLsbD i = e.code.getD i false := by
  rw [packCtEntry, getLsbD_append_ofNat _ hi, codeValue_testBit]

theorem packCtEntry_len_bit {i : Nat} (hi : i < bitLength cm) :
    (packCtEntry sw cm e).getLsbD (cm + i) = e.code.length.testBit i := by
  rw [packCtEntry, getLsbD_append_add, getLsbD_append_ofNat _ hi]

theorem packCtEntry_sym_bit {i : Nat} (hi : i < sw) :
    (packCtEntry sw cm e).getLsbD (cm + bitLength cm + i) = e.sym.testBit i := by
  rw [packCtEntry, Nat.add_assoc cm, getLsbD_append_add, getLsbD_append_add, getLsbD_ofNat_of_lt hi]

/-- The digits of a code of at most `CODE_MAX` digits are the low bits. -/
theorem packCtEntry_digits (hlen : e.code.length ≤ cm) :
    (List.range e.code.length).map (packCtEntry sw cm e).getLsbD = e.code := by
  refine List.ext_getElem (by simp) fun i _ hi => ?_
  rw [List.getElem_map, List.getElem_range, packCtEntry_code_bit (hi.trans_le hlen),
    List.getD_eq_getElem _ _ hi]

/-- The `len` field is wide enough for the length of such a code. -/
theorem unpackCtEntry_packCtEntry (hsym : e.sym < 2 ^ sw) (hlen : e.code.length ≤ cm) :
    unpackCtEntry sw cm (packCtEntry sw cm e) = e := by
  have hwidth : e.code.length < 2 ^ bitLength cm := hlen.trans_lt (bitLength_least cm).1
  have hlenField : (packCtEntry sw cm e).extractLsb' cm (bitLength cm) =
      BitVec.ofNat (bitLength cm) e.code.length := by
    rw [packCtEntry, BitVec.extractLsb'_append_eq_of_le le_rfl, Nat.sub_self,
      BitVec.extractLsb'_append_eq_right]
  have hsymField : (packCtEntry sw cm e).extractLsb' (bitLength cm + cm) sw = BitVec.ofNat sw e.sym := by
    rw [packCtEntry, BitVec.extractLsb'_append_eq_of_le (Nat.le_add_left _ _), Nat.add_sub_cancel,
      BitVec.extractLsb'_append_eq_left]
  rw [unpackCtEntry, hlenField, hsymField, toNat_ofNat_of_lt hwidth, toNat_ofNat_of_lt hsym,
    packCtEntry_digits hlen]

end

/-! ## ROOT (30_encoding.md R90, 10_state.md R27) -/

theorem packRoot_valid (iw : Nat) (r : Root) : (packRoot iw r).getLsbD iw = r.valid := by
  rw [packRoot]
  refine (getLsbD_append_add _ _ 0).trans ?_
  cases r.valid <;> rfl

theorem unpackRoot_packRoot {iw : Nat} {r : Root} (hidx : r.idx < 2 ^ iw) :
    unpackRoot iw (packRoot iw r) = r := by
  rw [unpackRoot, packRoot_valid, packRoot, BitVec.extractLsb'_append_eq_right, toNat_ofNat_of_lt hidx]

/-! ## The statements -/

/-- Settles O47, record by record; digit `i` of a code is bit `i` of its value (`codeValue_testBit`), and the
width of `len` is the least that holds CODE_MAX (`bitLength_least`). -/
theorem recordLayoutBits : Obligations.RecordLayoutBits := by
  refine ⟨packFtEntry_bits, packNode_leaf_bits, packNode_internal_bits, fun sw cm e hlen => ?_,
    fun iw r => ⟨packRoot_valid iw r, fun i hi => getLsbD_append_ofNat _ hi⟩⟩
  refine ⟨fun i d hd => ?_, fun i hge hi => ?_, fun i => packCtEntry_len_bit,
    fun i => packCtEntry_sym_bit, bitLength_least cm⟩
  · have hi := (List.getElem?_eq_some_iff.1 hd).1
    rw [packCtEntry_code_bit (hi.trans_le hlen), List.getD_eq_getElem?_getD, hd, Option.getD_some]
  · rw [packCtEntry_code_bit hi, List.getD_eq_default _ _ hge]

/-- Settles O48, record by record: a field that fits its width is the number its bits hold. -/
theorem packedRecordsReadBack : Obligations.PackedRecordsReadBack :=
  ⟨fun _ _ _ => unpackFtEntry_packFtEntry, fun _ _ _ _ _ => unpackNode_packNode_leaf,
    fun _ _ _ _ _ _ => unpackNode_packNode_internal, fun _ _ _ => unpackCtEntry_packCtEntry,
    fun _ _ => unpackRoot_packRoot⟩

end Sys2Proof.Machine
end
